-- ==== Sys2Proof/Word.lean ====
section
/-! DEFINITION. The word of the ICE: an unsigned byte, and the one arithmetic operation on it. -/

namespace Sys2Proof

/-- `u8` (R7): a value in [0, 255], bit 0 the least significant. Registers, addresses and memory cells are bytes (R5). -/
abbrev Byte := BitVec 8

/-- `x +8 1`, the only arithmetic any rule uses: it wraps modulo 256 with no overflow error (R8). -/
def inc8 (x : Byte) : Byte := x + 1

end Sys2Proof
end

