-- ==== Sys2Proof/Syntax.lean ====
section
/-! DEFINITION. The instructions of HW8, one constructor for each row of spec/opcode_table.json. -/

namespace Sys2Proof

/-- The rows of the opcode map (R53). The register `A` is implied by the opcode and no field names it (R50, R51). -/
inductive Instr where
  /-- `LDI A, imm8` (R74), format I: `imm8` is the byte after the opcode. -/
  | ldi (imm8 : Byte)
  /-- `OUT A` (R76), format Z. -/
  | out
  /-- `HLT` (R78), format Z. -/
  | hlt
  /-- An unknown opcode (R79), format Z: `op` is the opcode byte itself. -/
  | unknown (op : Byte)
  deriving DecidableEq, Repr

end Sys2Proof
end

