-- ==== Sys2Proof/Decode.lean ====
section
/-! DEFINITION. The opcode map (R49 to R56): the decoder from bytes, and the encoder. -/

namespace Sys2Proof

/-- The opcode of `LDI` (R53). -/
def opcodeLdi : Byte := 0x10

/-- The opcode of `OUT` (R53). -/
def opcodeOut : Byte := 0x20

/-- The opcode of `HLT` (R53). -/
def opcodeHlt : Byte := 0xFF

/-- The default row of the map: every value other than the three above (R53, R54). -/
def isUnknownOpcode (op : Byte) : Bool :=
  op != opcodeLdi && op != opcodeOut && op != opcodeHlt

/-- The length of an instruction, from its opcode byte alone (R52). -/
def instrLength (op : Byte) : Nat :=
  if op = opcodeLdi then 2 else 1

/-- Why a list of bytes is no instruction. Every list that starts with a whole instruction decodes. -/
inductive DecodeError where
  /-- The list is empty. -/
  | noOpcodeByte
  /-- The list ends after the opcode of `LDI`. -/
  | noOperandByte
  deriving DecidableEq, Repr

/-- The instruction at the head of a list of bytes, with the bytes after it. The whole opcode byte is compared
(R53), and the byte after it is looked at only for `LDI` (R51, R55). -/
def decode : List Byte → Except DecodeError (Instr × List Byte)
  | [] => .error .noOpcodeByte
  | op :: rest =>
    if op = opcodeLdi then
      match rest with
      | [] => .error .noOperandByte
      | imm8 :: rest' => .ok (.ldi imm8, rest')
    else if op = opcodeOut then .ok (.out, rest)
    else if op = opcodeHlt then .ok (.hlt, rest)
    else .ok (.unknown op, rest)

/-- The opcode byte of an instruction (R53). -/
def Instr.opcode : Instr → Byte
  | .ldi _ => opcodeLdi
  | .out => opcodeOut
  | .hlt => opcodeHlt
  | .unknown op => op

/-- The bytes of an instruction, the opcode first: formats Z (R50) and I (R51). -/
def encode : Instr → List Byte
  | .ldi imm8 => [opcodeLdi, imm8]
  | .out => [opcodeOut]
  | .hlt => [opcodeHlt]
  | .unknown op => [op]

/-- Byte `k` of an instruction whose bits are `w`, the first byte being bits 7 to 0; bits from `nbits` up are 0. -/
def tableByte (nbits w k : Nat) : Byte :=
  BitVec.ofNat 8 (w % 2 ^ nbits / 2 ^ (8 * k))

/-- The instruction the decoder reads from a row's bits, laid out as bytes in address order (R38). -/
def decodeTableWord (nbits w : Nat) : Option Instr :=
  match decode [tableByte nbits w 0, tableByte nbits w 1] with
  | .ok (i, _) => some i
  | .error _ => none

end Sys2Proof
end

