-- ==== Sys2Proof/Config.lean ====
section
/-! DEFINITION. The fixed parameters of the ICE (R5). The open ones (R6) are arguments where they are used:
`IMAGE` of `construct` (Machine/Ops.lean), `LABEL_TEXT` and `CHAR_MAP` of `Presentation` (Machine/Presenter.lean).
The spec leaves no result of any instruction open, so there is no free value here. -/

namespace Sys2Proof.Config

/-- `MEM_SIZE`: 256 cells of one byte (R5, R31). -/
def memSize : Nat := 256

/-- What a cell the Program Loader does not set holds (R32, R41): the value a memory cell reads as when no entry lists it. -/
def fillByte : Byte := 0x00

/-- The address of the first instruction, the reset value of `PC` (R99). -/
def entryPoint : Byte := 0x00

end Sys2Proof.Config
end

