-- ==== Sys2Proof/Machine/Memory.lean ====
section
/-! DEFINITION. The memory array (R31): 256 cells of one byte, as a sorted list of the cells that are not the fill byte. -/

namespace Sys2Proof.Machine

/-- The cells whose byte is not the fill byte, with their addresses. -/
abbrev Memory := List Host.Cell

/-- The canonical form: addresses strictly rising, each below 256 (R31), and no entry equal to the fill byte. -/
abbrev Memory.wf (m : Memory) : Prop :=
  (m.map Prod.fst).Pairwise (· < ·) ∧ ∀ c ∈ m, c.1 < Config.memSize ∧ c.2 ≠ Config.fillByte

/-- The byte listed at an address, or the fill byte (R32, R41). -/
def Memory.readAt (m : Memory) (addr : Nat) : Byte :=
  match m with
  | [] => Config.fillByte
  | c :: rest => if c.1 = addr then c.2 else Memory.readAt rest addr

/-- `MemRead(addr, 1)` (R34, R35): every address names a cell, so a read always succeeds. -/
def Memory.read (m : Memory) (addr : Byte) : Byte :=
  Memory.readAt m addr.toNat

/-- A cell set to `v` in front of cells at higher addresses: the fill byte is not listed. -/
def Memory.cons (addr : Nat) (v : Byte) (rest : Memory) : Memory :=
  if v = Config.fillByte then rest else (addr, v) :: rest

/-- The memory with one cell set, in canonical form. -/
def Memory.writeAt (m : Memory) (addr : Nat) (v : Byte) : Memory :=
  match m with
  | [] => Memory.cons addr v []
  | c :: rest =>
    if addr < c.1 then Memory.cons addr v (c :: rest)
    else if addr = c.1 then Memory.cons addr v rest
    else c :: Memory.writeAt rest addr v

/-- Setting one cell: the Program Loader's alone, before execution (R32, R33). No engine operation calls it (R36). -/
def Memory.write (m : Memory) (addr : Byte) (v : Byte) : Memory :=
  Memory.writeAt m addr.toNat v

/-- The cells from `256 - n` up to 255 of an image. -/
def Memory.imageFrom (image : Fin 256 → Byte) : Nat → Memory
  | 0 => []
  | n + 1 =>
    let addr := Fin.ofNat 256 (255 - n)
    Memory.cons addr.val (image addr) (Memory.imageFrom image n)

/-- The memory that holds the Program Loader's image (R32): cell `i` holds `image i`. -/
def Memory.ofImage (image : Fin 256 → Byte) : Memory :=
  Memory.imageFrom image Config.memSize

end Sys2Proof.Machine
end

