-- ==== Sys2Proof/Machine/State.lean ====
section
/-! DEFINITION. The whole state of the ICE (the table at the head of spec/10_state.md) and its value at reset. -/

namespace Sys2Proof.Machine

/-- The hidden phase (R19): which micro-step comes next. -/
inductive Phase where
  | fetch
  | execute
  deriving DecidableEq, Repr

/-- A `last_op` label (R22), the description of the most recent micro-step (R21). -/
inductive Label where
  /-- NONE: written by reset; its text is empty. -/
  | none
  /-- FETCH: the address fetched and the opcode found there. -/
  | fetch (addr op : Byte)
  /-- LOAD: the operand's address and the byte loaded. -/
  | load (addr value : Byte)
  /-- OUT: the byte emitted. -/
  | out (char : Byte)
  /-- HALT: written by `HLT`; its text is "HLT". -/
  | halt
  /-- UNKNOWN: the unrecognised opcode. -/
  | unknown (op : Byte)
  deriving DecidableEq, Repr

/-- The places where the engine exposes a snapshot (R25). -/
inductive RenderPoint where
  | postFetch
  | postExecute
  | final
  deriving DecidableEq, Repr

/-- What the Presenter is given read access to (R24): neither the memory nor the phase. The output is held whole,
one of the two forms R24 allows (log entry 6). -/
structure Snapshot where
  pc : Byte
  mar : Byte
  mbr : Byte
  ir : Byte
  a : Byte
  lastOp : Label
  output : List Byte
  running : Bool
  deriving DecidableEq, Repr

/-- One record of the step-logging trace buffer (R25). -/
structure TraceRecord where
  point : RenderPoint
  snapshot : Snapshot
  deriving DecidableEq, Repr

/-- The state of the machine. -/
structure State where
  /-- `PC`, the address of the next byte to fetch (R12). -/
  pc : Byte
  /-- `MAR`, the last address accessed (R13). -/
  mar : Byte
  /-- `MBR`, the last byte read from memory (R14). -/
  mbr : Byte
  /-- `IR`, the currently decoded opcode (R15). -/
  ir : Byte
  /-- `A`, the accumulator (R16). -/
  a : Byte
  /-- The `running` flag (R18): Running when true, Halted when false (R20). -/
  running : Bool
  /-- The phase (R19). -/
  phase : Phase
  /-- `last_op` (R21). -/
  lastOp : Label
  /-- The output buffer, oldest byte first (R23). -/
  output : List Byte
  /-- The trace buffer, oldest record first (R25). -/
  trace : List TraceRecord
  /-- The memory (R31). -/
  mem : Memory
  deriving DecidableEq, Repr

/-- Why the machine stops with a fault. The ICE itself has no fault (R35, R83). -/
inductive Fault where
  /-- Raised by `decodeExecute` if the decoder rejects the bytes given to it. No step reaches it, because as many
  bytes are given as the opcode calls for. Safe: it could only stop a run. Log entry 8. -/
  | undecodable (e : DecodeError)
  deriving DecidableEq, Repr

/-- Why an instruction has no meaning. -/
inductive Refusal where
  /-- Raised by an arm of `exec` that has no meaning yet; there is none. Safe: it could only stop a run. -/
  | notModelled (mnemonic : String)
  deriving DecidableEq, Repr

/-- The machine right after reset (R29, R96), constructed with nothing loaded, so that every cell holds the fill
byte (R32, R41; log entry 3). -/
def State.reset : State where
  pc := Config.entryPoint
  mar := 0x00
  mbr := 0x00
  ir := 0x00
  a := 0x00
  running := true
  phase := .fetch
  lastOp := .none
  output := []
  trace := []
  mem := []

end Sys2Proof.Machine
end

