-- ==== Sys2Proof/Machine/Flags.lean ====
section
/-! DEFINITION. The one status flag, `running` (R18). The ICE computes no condition codes (R27). -/

namespace Sys2Proof.Machine

/-- Halted is `running` = false (R20). -/
abbrev State.Halted (s : State) : Prop := s.running = false

/-- `running <- false` (R18); only `halt` (R9) does this, and only reset undoes it. -/
def State.clearRunning (s : State) : State := { s with running := false }

end Sys2Proof.Machine
end

