-- ==== Sys2Proof/Machine/Ops.lean ====
section
/-! DEFINITION. The named operations over registers, memory, output and trace that fetch and the execute micro-steps
share (R9), the controlled halt, and reset and construction. -/

namespace Sys2Proof.Machine

/-- `MemRead(addr, 1)` on the machine's memory (R34, R35). -/
def State.memRead (s : State) (addr : Byte) : Byte := s.mem.read addr

/-- `MAR <- addr; MBR <- data`: what every memory read leaves in the two registers (R13, R14, R34). -/
def State.latchRead (s : State) (addr data : Byte) : State := { s with mar := addr, mbr := data }

/-- `PC <- PC +8 1`, the only way `PC` is written (R12). -/
def State.advancePc (s : State) : State := { s with pc := inc8 s.pc }

/-- `IR <- op` (R15). -/
def State.setIr (s : State) (op : Byte) : State := { s with ir := op }

/-- `A <- v` (R16). -/
def State.setA (s : State) (v : Byte) : State := { s with a := v }

/-- `last_op <- L` (R21). -/
def State.setLastOp (s : State) (l : Label) : State := { s with lastOp := l }

/-- `phase <- p` (R19). -/
def State.setPhase (s : State) (p : Phase) : State := { s with phase := p }

/-- `output <- output ++ [b]` (R23). -/
def State.appendOutput (s : State) (b : Byte) : State := { s with output := s.output ++ [b] }

/-- The snapshot of the current state (R24). -/
def State.snapshot (s : State) : Snapshot where
  pc := s.pc
  mar := s.mar
  mbr := s.mbr
  ir := s.ir
  a := s.a
  lastOp := s.lastOp
  output := s.output
  running := s.running

/-- `emit(point)` (R25): one trace record of the current state. -/
def State.emit (s : State) (point : RenderPoint) : State :=
  { s with trace := s.trace ++ [{ point := point, snapshot := s.snapshot }] }

/-- The end of every execute micro-step (R62, R63, R70): the phase goes back to FETCH, POST_EXECUTE is recorded, and
FINAL after it when `running` is now false. -/
def State.endExecute (s : State) : State :=
  let t := (s.setPhase .fetch).emit .postExecute
  if t.running then t else t.emit .final

/-- `halt(L)` (R9): the engine stops with a label that says why (R80). -/
def State.halt (s : State) (l : Label) : State := s.clearRunning.setLastOp l

/-- Taking the one exception, UnknownOpcode (R9, R82): a controlled halt that records the opcode in the label.
There is no saved pc, vector or mode (R86), and no return but reset (R87). -/
def State.raiseUnknownOpcode (s : State) (op : Byte) : State := s.halt (.unknown op)

/-- Reset (R96, R97), the only way out of Halted (R87): everything takes its reset value but the memory. -/
def applyReset (s : State) : State := { State.reset with mem := s.mem }

/-- Construction (R98): the memory takes the Program Loader's image, then reset is applied. -/
def construct (image : Fin 256 → Byte) : State := { State.reset with mem := Memory.ofImage image }

/-- The bytes of one instruction in the cells at `PC` and the address after it (R51), as the Program Loader would
have set them. -/
def State.placeAtPc (s : State) (first second : Byte) : State :=
  { s with mem := (s.mem.write s.pc first).write (inc8 s.pc) second }

/-- A state in which a fetch is enabled (R60). -/
def State.readyToFetch (s : State) : State := { s with running := true, phase := .fetch }

end Sys2Proof.Machine
end

