-- ==== Sys2Proof/Machine/Operands.lean ====
section
/-! DEFINITION. The operand forms: the implied accumulator and the immediate byte (R50, R51). -/

namespace Sys2Proof.Machine

/-- The source of `OUT A`, implied by the opcode (R50, R76). -/
def State.implicitA (s : State) : Byte := s.a

/-- The operand bytes of the instruction in `IR`: for a two-byte instruction the byte at `PC`, which the fetch has
already advanced past the opcode (R51, R103); for a one-byte instruction none, so that no cell is read (R37, R52). -/
def State.operandBytes (s : State) : List Byte :=
  if instrLength s.ir = 2 then [s.memRead s.pc] else []

end Sys2Proof.Machine
end

