-- ==== Sys2Proof/Machine/Halt.lean ====
section
/-! DEFINITION. The halt family: the execute micro-steps of `HLT` (R78) and of an unknown opcode (R79). -/

namespace Sys2Proof.Machine

/-- `HLT` (R78): a normal halt. -/
def execHlt (s : State) : Host.Outcome State Fault Refusal :=
  .next (s.halt .halt).endExecute

/-- An unknown opcode (R79): it takes the UnknownOpcode halt (R81, R82). `op` is the value in `IR`. -/
def execUnknown (op : Byte) (s : State) : Host.Outcome State Fault Refusal :=
  .next (s.raiseUnknownOpcode op).endExecute

end Sys2Proof.Machine
end

