-- ==== Sys2Proof/Machine/Load.lean ====
section
/-! DEFINITION. The load family: the execute micro-step of `LDI` (R74, R75). -/

namespace Sys2Proof.Machine

/-- `LDI A, imm8` (R74). `imm8` is the byte the operand read returns, `mem[PC]` on entry (`State.operandBytes`). -/
def execLdi (imm8 : Byte) (s : State) : Host.Outcome State Fault Refusal :=
  .next (((s.latchRead s.pc imm8).setA imm8).advancePc.setLastOp (.load s.pc imm8)).endExecute

end Sys2Proof.Machine
end

