-- ==== Sys2Proof/Machine/Output.lean ====
section
/-! DEFINITION. The output family: the execute micro-step of `OUT` (R76, R77). -/

namespace Sys2Proof.Machine

/-- `OUT A` (R76): the byte in `A` goes to the end of the output buffer as it stands. -/
def execOut (s : State) : Host.Outcome State Fault Refusal :=
  .next ((s.appendOutput s.implicitA).setLastOp (.out s.implicitA)).endExecute

end Sys2Proof.Machine
end

