-- ==== Sys2Proof/Machine/Cycle.lean ====
section
/-! DEFINITION. The instruction cycle (spec/40_cycle.md): the fetch and execute micro-steps, the micro-step relation,
the instruction step, and the run. -/

namespace Sys2Proof.Machine

/-- The fetch micro-step (R60), in the spec's order. It looks at no property of the opcode. -/
def fetch (s : State) : State :=
  let opcode := s.memRead s.pc
  let read := (s.latchRead s.pc opcode).setIr opcode
  ((read.setLastOp (.fetch s.pc opcode)).advancePc.setPhase .execute).emit .postFetch

/-- The execute micro-step (R62), the source's decodeExecute(): it decodes `IR` (R56), with the operand byte at `PC`
where the opcode calls for one, and runs the arm. -/
def decodeExecute (s : State) : Host.Outcome State Fault Refusal :=
  match decode (s.ir :: s.operandBytes) with
  | .ok (i, _) => exec i s
  | .error e => .fault (.undecodable e)

/-- The micro-step relation (R59): none is enabled while Halted (R68). -/
def microStep (s : State) : Option (Host.Outcome State Fault Refusal) :=
  if s.running then
    match s.phase with
    | .fetch => some (.next (fetch s))
    | .execute => some (decodeExecute s)
  else none

/-- The host's advance request (R95): one micro-step if enabled. A Halted engine ignores it (R68). -/
def advance (s : State) : Host.Outcome State Fault Refusal :=
  (microStep s).getD (.next s)

/-- `n` advance requests. -/
def advances : Nat → State → Host.Outcome State Fault Refusal
  | 0, s => .next s
  | n + 1, s =>
    match advance s with
    | .next t => advances n t
    | .fault r => .fault r
    | .refused r => .refused r

/-- The instruction step (R65), `execute(fetch(s))` where a fetch is enabled. Between the two micro-steps of an
instruction, where the source has no step(), it is the execute micro-step that is left (log entry 9); while Halted no
micro-step is enabled and the state stays (R68; log entry 2). -/
def instructionStep (s : State) : Host.Outcome State Fault Refusal :=
  if s.running then
    match s.phase with
    | .fetch => decodeExecute (fetch s)
    | .execute => decodeExecute s
  else .next s

/-- The run loop (R66) for at most `n` instruction steps: `running` is tested before each. A run need not end (R72),
so the bound is the model's (log entry 13). -/
def run : Nat → State → Host.Outcome State Fault Refusal
  | 0, s => .next s
  | n + 1, s =>
    if s.running then
      match instructionStep s with
      | .next t => run n t
      | .fault r => .fault r
      | .refused r => .refused r
    else .next s

/-- Run completion (R66): Halted, with the FINAL record last in the trace. -/
def State.runComplete (s : State) : Bool :=
  !s.running && (s.trace.getLast?.map (·.point) == some .final)

end Sys2Proof.Machine
end

