-- ==== Sys2Proof/Machine/Step.lean ====
section
/-! DEFINITION. The machine's step, and the placing of one instruction where it fetches. -/

namespace Sys2Proof.Machine

/-- One step of the machine is one instruction step (R65), which leaves both render points in the trace. The finer
transition relation is `microStep` (R59; log entry 1). -/
def step (s : State) : Host.Outcome State Fault Refusal := instructionStep s

/-- The instruction whose bits are `w`, stored at `PC` with the engine ready to fetch it (log entry 4). -/
def State.withFetchWord (s : State) (nbits w : Nat) : State :=
  s.readyToFetch.placeAtPc (tableByte nbits w 0) (tableByte nbits w 1)

end Sys2Proof.Machine
end

