-- ==== Sys2Proof/Machine/Assembler.lean ====
section
/-! DEFINITION. The assembly form of R57: statements, the image they emit, and the reading of source text. There are
no pseudo-instructions and no labels (R57, R58). -/

namespace Sys2Proof.Machine

/-- A statement (R57). Numbers are as written; their range is checked when the statement is assembled. -/
inductive AsmStatement where
  | ldi (imm : Nat)
  | out
  | hlt
  | byte (v : Nat)
  | org (addr : Nat)
  deriving DecidableEq, Repr

/-- Why a source does not assemble. -/
inductive AsmError where
  /-- A line is not one of the forms of R57. -/
  | notAStatement
  /-- A number is outside 0 to 255: for `<imm>` an error, not a wrap (R57), and the same for `.byte` and `.org`, where
  R57 gives the range alone (DESIGN CHOICE, log entry 12). -/
  | numberOutOfRange
  /-- Two bytes fall on one cell; R57 does not say which would stand (log entry 12). -/
  | cellEmittedTwice
  deriving DecidableEq, Repr

/-- The address of the next byte, and the bytes emitted so far with their addresses. -/
structure AsmState where
  loc : Byte
  cells : List (Byte × Byte)
  deriving DecidableEq, Repr

/-- A number 0 to 255 as a byte (R57), of `.byte` and `.org` as of `<imm>` (DESIGN CHOICE, log entry 12). -/
def asmByte (n : Nat) : Except AsmError Byte :=
  if n < 256 then .ok (BitVec.ofNat 8 n) else .error .numberOutOfRange

/-- Bytes at the current address and the ones after it; the address after 0xFF is 0x00 (R51). -/
def asmEmit : List Byte → AsmState → Except AsmError AsmState
  | [], st => .ok st
  | b :: rest, st =>
    if st.cells.any (fun c => c.1 == st.loc) then .error .cellEmittedTwice
    else asmEmit rest { loc := inc8 st.loc, cells := st.cells ++ [(st.loc, b)] }

/-- One statement (R57). -/
def asmStatement (st : AsmState) : AsmStatement → Except AsmError AsmState
  | .ldi imm => match asmByte imm with
    | .ok b => asmEmit (encode (.ldi b)) st
    | .error e => .error e
  | .out => asmEmit (encode .out) st
  | .hlt => asmEmit (encode .hlt) st
  | .byte v => match asmByte v with
    | .ok b => asmEmit [b] st
    | .error e => .error e
  | .org addr => match asmByte addr with
    | .ok b => .ok { st with loc := b }
    | .error e => .error e

/-- The statements of a program, in order. -/
def asmStatements : List AsmStatement → AsmState → Except AsmError AsmState
  | [], st => .ok st
  | x :: rest, st => match asmStatement st x with
    | .ok st' => asmStatements rest st'
    | .error e => .error e

/-- The image of emitted bytes: a cell with none holds the fill byte (R57, R32). -/
def asmImage (cells : List (Byte × Byte)) (i : Fin 256) : Byte :=
  match cells.find? (fun c => c.1 == BitVec.ofFin i) with
  | some c => c.2
  | none => Config.fillByte

/-- The image a program assembles to, the `IMAGE` of construction. The first byte goes to address 0x00 unless `.org`
says otherwise (R99; log entry 12). -/
def assemble (program : List AsmStatement) : Except AsmError (Fin 256 → Byte) :=
  match asmStatements program { loc := Config.entryPoint, cells := [] } with
  | .ok st => .ok (asmImage st.cells)
  | .error e => .error e

/-- The value of a digit in decimal or hexadecimal, the latter in either case (DESIGN CHOICE, log entry 12). -/
def asmDigit (base : Nat) (c : Char) : Option Nat :=
  let v :=
    if '0' ≤ c ∧ c ≤ '9' then c.toNat - '0'.toNat
    else if 'a' ≤ c ∧ c ≤ 'f' then c.toNat - 'a'.toNat + 10
    else if 'A' ≤ c ∧ c ≤ 'F' then c.toNat - 'A'.toNat + 10
    else base
  if v < base then some v else none

/-- The value of digits after a value read so far. -/
def asmDigits (base : Nat) : List Char → Nat → Option Nat
  | [], n => some n
  | c :: rest, n => match asmDigit base c with
    | some d => asmDigits base rest (n * base + d)
    | none => none

/-- A number in decimal or `0x` hexadecimal (R57), with leading zeros or without (DESIGN CHOICE, log entry 12). -/
def asmNumber : List Char → Option Nat
  | [] => none
  | '0' :: 'x' :: c :: rest => asmDigits 16 (c :: rest) 0
  | word => asmDigits 10 word 0

/-- A word, if it holds a character. -/
def asmFlush (word : List Char) : List (List Char) :=
  if word.isEmpty then [] else [word]

/-- The words of a line up to a `;` comment: words end at blanks, and a comma is a word of its own. `word` is the
word being read. That the blanks are the space, the tab and the carriage return is the model's choice (DESIGN CHOICE, log
entry 12), since R57 is silent on blanks. -/
def asmWords : List Char → List Char → List (List Char)
  | [], word => asmFlush word
  | c :: rest, word =>
    if c = ';' then asmFlush word
    else if c = ',' then asmFlush word ++ [','] :: asmWords rest []
    else if c = ' ' ∨ c = '\t' ∨ c = '\r' then asmFlush word ++ asmWords rest []
    else asmWords rest (word ++ [c])

/-- The statement on a line, if it holds one (R57): mnemonics are upper case. R57 gives the written form of a number for
`<imm>` alone; that the numbers of `.byte` and `.org` may be in decimal or `0x` hexadecimal too is the model's choice
(DESIGN CHOICE, log entry 12), and so is that a blank line holds no statement. -/
def asmLine (line : List Char) : Except AsmError (List AsmStatement) :=
  match asmWords line [] with
  | [] => .ok []
  | [['O', 'U', 'T'], ['A']] => .ok [.out]
  | [['H', 'L', 'T']] => .ok [.hlt]
  | [['L', 'D', 'I'], ['A'], [','], n] => match asmNumber n with
    | some v => .ok [.ldi v]
    | none => .error .notAStatement
  | [['.', 'b', 'y', 't', 'e'], n] => match asmNumber n with
    | some v => .ok [.byte v]
    | none => .error .notAStatement
  | [['.', 'o', 'r', 'g'], n] => match asmNumber n with
    | some v => .ok [.org v]
    | none => .error .notAStatement
  | _ => .error .notAStatement

/-- The statements of a source, one a line (R57). `line` is the line being read. That a newline ends a line, and that the
last line may go without one, is the model's choice (DESIGN CHOICE, log entry 12). -/
def asmSource : List Char → List Char → Except AsmError (List AsmStatement)
  | [], line => asmLine line
  | c :: rest, line =>
    if c = '\n' then
      match asmLine line, asmSource rest [] with
      | .ok xs, .ok ys => .ok (xs ++ ys)
      | .error e, _ => .error e
      | _, .error e => .error e
    else asmSource rest (line ++ [c])

/-- The image a source text assembles to. -/
def assembleSource (source : List Char) : Except AsmError (Fin 256 → Byte) :=
  match asmSource source [] with
  | .ok program => assemble program
  | .error e => .error e

end Sys2Proof.Machine
end

