-- ==== Sys2Proof/Machine/Presenter.lean ====
section
/-! DEFINITION. What the spec says of the Presenter's two open parameters, `LABEL_TEXT` (R22) and `CHAR_MAP` (R77).
No operation of the engine reads either. How the Presenter draws is outside the spec (R4). -/

namespace Sys2Proof.Machine

/-- A choice of the open parameters `LABEL_TEXT` and `CHAR_MAP` (R6). -/
structure Presentation where
  labelText : Label → String
  charMap : Byte → Char

/-- One text stands inside another. -/
abbrev Within (part text : String) : Prop := part.toList <:+: text.toList

/-- What R22 and R77 require of a presentation. "Shows a byte" is read as: the text contains a written form of it, one
written form for each byte and none of them empty, and texts that show other bytes are other texts. A FETCH text need not
say which of its two bytes is the address (log entry 11). The texts of LOAD and OUT are not constrained, and of the characters for
0x80 to 0xFF R77 says only that they are out of the ASCII range. -/
structure Presentation.Admissible (p : Presentation) : Prop where
  none_is_empty : p.labelText .none = ""
  halt_is_HLT : p.labelText .halt = "HLT"
  bytes_shown : ∃ shown : Byte → String, Function.Injective shown ∧ (∀ b, shown b ≠ "") ∧
    (∀ addr op, Within (shown op) (p.labelText (.fetch addr op)) ∧ Within (shown addr) (p.labelText (.fetch addr op))) ∧
    (∀ op, Within (shown op) (p.labelText (.unknown op)))
  fetch_texts_differ : ∀ addr op addr' op', p.labelText (.fetch addr op) = p.labelText (.fetch addr' op') →
    (addr = addr' ∧ op = op') ∨ (addr = op' ∧ op = addr')
  unknown_texts_differ : ∀ op op', p.labelText (.unknown op) = p.labelText (.unknown op') → op = op'
  unknown_is_named : ∀ op, Within "UNKNOWN" (p.labelText (.unknown op))
  ascii_char : ∀ b : Byte, b.toNat < 0x80 → p.charMap b = Char.ofNat b.toNat
  out_of_ascii_char : ∀ b : Byte, 0x80 ≤ b.toNat → 0x80 ≤ (p.charMap b).toNat

/-- The characters a Presenter shows for the output buffer (R23, R77). -/
def Presentation.shownOutput (p : Presentation) (s : Snapshot) : List Char := s.output.map p.charMap

/-- The text a Presenter shows for the last micro-step (R22). -/
def Presentation.shownLabel (p : Presentation) (s : Snapshot) : String := p.labelText s.lastOp

end Sys2Proof.Machine
end

