-- ==== Sys2Proof/Machine/TraceLayout.lean ====
section
/-! DEFINITION. The hardware layout of a trace record (R26) and the codes of labels (R22) and render points (R25). It
is a view of the trace: the trace itself holds the tuples of R25, which R26 calls equivalent. -/

namespace Sys2Proof.Machine

/-- The code of a render point (R25); 3 is not used. -/
def RenderPoint.code : RenderPoint → BitVec 2
  | .postFetch => 0
  | .postExecute => 1
  | .final => 2

/-- The kind code of a label (R22). -/
def Label.kindCode : Label → BitVec 3
  | .none => 0
  | .fetch _ _ => 1
  | .load _ _ => 2
  | .out _ => 3
  | .halt => 4
  | .unknown _ => 5

/-- The first label field (R26): 0 if the label has none. -/
def Label.field1 : Label → Byte
  | .none => 0
  | .fetch addr _ => addr
  | .load addr _ => addr
  | .out char => char
  | .halt => 0
  | .unknown op => op

/-- The second label field (R26): 0 if the label has none. -/
def Label.field2 : Label → Byte
  | .none => 0
  | .fetch _ op => op
  | .load _ value => value
  | .out _ => 0
  | .halt => 0
  | .unknown _ => 0

/-- A trace record as a hardware record (R26). -/
structure HwRecord where
  point : BitVec 2
  pc : Byte
  mar : Byte
  mbr : Byte
  ir : Byte
  a : Byte
  running : Bool
  opKind : BitVec 3
  opF1 : Byte
  opF2 : Byte
  outLen : Nat
  deriving DecidableEq, Repr

/-- The hardware record of a trace record (R26): the output as its length (R24). -/
def TraceRecord.toHw (r : TraceRecord) : HwRecord where
  point := r.point.code
  pc := r.snapshot.pc
  mar := r.snapshot.mar
  mbr := r.snapshot.mbr
  ir := r.snapshot.ir
  a := r.snapshot.a
  running := r.snapshot.running
  opKind := r.snapshot.lastOp.kindCode
  opF1 := r.snapshot.lastOp.field1
  opF2 := r.snapshot.lastOp.field2
  outLen := r.snapshot.output.length

end Sys2Proof.Machine
end

