-- ==== Sys2Proof/WellFormed.lean ====
section
/-! DEFINITION. Which terms of `Instr` are instructions: an unknown opcode is one of the 253 values no row defines. -/

namespace Sys2Proof

/-- `unknown op` stands only for an opcode outside 0x10, 0x20 and 0xFF (R53, R79); the other forms admit every operand. -/
def Instr.wellFormed : Instr → Bool
  | .ldi _ => true
  | .out => true
  | .hlt => true
  | .unknown op => isUnknownOpcode op

end Sys2Proof
end

