-- ==== Sys2Proof/Safety.lean ====
section
/-! DEFINITION. The terms claims about whole runs use: what the trace says, the invariant, and reachability. -/

namespace Sys2Proof.Machine

/-- The render points of the trace, in order. -/
def State.points (s : State) : List RenderPoint := s.trace.map (·.point)

/-- The render points `n` instruction steps leave: POST_FETCH and POST_EXECUTE, `n` times (R70). -/
def roundPoints : Nat → List RenderPoint
  | 0 => []
  | n + 1 => roundPoints n ++ [.postFetch, .postExecute]

/-- The render points after the last whole instruction step (R69, R70): none at an instruction boundary, POST_FETCH
between the micro-steps, FINAL once Halted. -/
def State.lastPoints (s : State) : List RenderPoint :=
  if s.running then
    match s.phase with
    | .fetch => []
    | .execute => [.postFetch]
  else [.final]

/-- The bytes the trace records as emitted: one for each POST_EXECUTE of an `OUT` (R22, R76). -/
def emittedBytes (trace : List TraceRecord) : List Byte :=
  trace.filterMap fun r =>
    match r.point, r.snapshot.lastOp with
    | .postExecute, .out char => some char
    | _, _ => none

/-- The invariant every micro-step keeps. -/
structure Inv (s : State) : Prop where
  /-- The memory is in canonical form. -/
  mem_wf : s.mem.wf
  /-- `phase` is FETCH in every Halted state (R63). -/
  halted_at_boundary : s.running = false → s.phase = .fetch
  /-- The trace is whole instruction steps and then what `phase` and `running` say (R69, R70); a Halted engine has
  run at least one. -/
  trace_shape : ∃ n, s.points = roundPoints n ++ s.lastPoints ∧ (s.running = false → 0 < n)
  /-- The last record shows the state as it is now (R64). -/
  last_record_current : ∀ r, s.trace.getLast? = some r → r.snapshot = s.snapshot
  /-- `MAR` and `MBR` hold the last address accessed and the byte read there, once a read was made (R13, R14). -/
  last_read : s.trace ≠ [] → s.mbr = s.memRead s.mar
  /-- Between the micro-steps the registers and the label are those a fetch leaves (R60). -/
  just_fetched : s.phase = .execute → s.ir = s.mbr ∧ s.pc = inc8 s.mar ∧ s.lastOp = .fetch s.mar s.ir
  /-- A Halted engine holds the opcode that halted it, and the label says which way (R15, R80). -/
  halt_cause : s.running = false →
    (s.ir = opcodeHlt ∧ s.lastOp = .halt) ∨ (isUnknownOpcode s.ir = true ∧ s.lastOp = .unknown s.ir)
  /-- The output is what the trace records as emitted (R23, R76). -/
  output_traced : s.output = emittedBytes s.trace
  /-- Every recorded output is a prefix of the output (R24, R30). -/
  outputs_append_only : ∀ r ∈ s.trace, r.snapshot.output <+: s.output

/-- The states an engine constructed with `image` can be in: construction, micro-steps, and reset between any two of
them (R97, R98). -/
inductive Reachable (image : Fin 256 → Byte) : State → Prop where
  | construct : Reachable image (construct image)
  | microStep {s t : State} : Reachable image s → microStep s = some (.next t) → Reachable image t
  | reset {s : State} : Reachable image s → Reachable image (applyReset s)

end Sys2Proof.Machine
end

