-- ==== Sys2Proof/Certificates/Slice0/Obligations.lean ====
section
/-! DEFINITION. The statements for the provers. The states they compare with (`Expected`) are written field by field
from the spec's pseudocode, without the model's own operations. Where a statement speaks of `phase`, `trace` or the
fields of a label, it speaks of the spec's own decisions (spec/92_eei_decisions.md D2, D8, D9, D10), and says so. -/

open Sys2Proof Sys2Proof.Machine

namespace Sys2Proof.Expected

/-- The state with one record of itself appended to the trace (R24, R25). -/
def record (point : RenderPoint) (s : State) : State :=
  { s with trace := s.trace ++ [⟨point, ⟨s.pc, s.mar, s.mbr, s.ir, s.a, s.lastOp, s.output, s.running⟩⟩] }

/-- What the fetch micro-step leaves (R60). -/
def afterFetch (s : State) : State :=
  record .postFetch { s with
    mar := s.pc, mbr := s.memRead s.pc, ir := s.memRead s.pc, lastOp := .fetch s.pc (s.memRead s.pc),
    pc := s.pc + 1, phase := .execute }

/-- What the execute micro-step of `LDI` leaves (R74), `value` being the operand byte read. -/
def afterLdi (value : Byte) (s : State) : State :=
  record .postExecute { s with
    mar := s.pc, mbr := value, a := value, pc := s.pc + 1, lastOp := .load s.pc value, phase := .fetch }

/-- What the execute micro-step of `OUT` leaves (R76). -/
def afterOut (s : State) : State :=
  record .postExecute { s with output := s.output ++ [s.a], lastOp := .out s.a, phase := .fetch }

/-- What the execute micro-step of `HLT` leaves (R78). -/
def afterHlt (s : State) : State :=
  record .final (record .postExecute { s with running := false, lastOp := .halt, phase := .fetch })

/-- What the execute micro-step of an unknown opcode leaves (R79). -/
def afterUnknown (op : Byte) (s : State) : State :=
  record .final (record .postExecute { s with running := false, lastOp := .unknown op, phase := .fetch })

/-- What reset leaves (R96). -/
def afterReset (s : State) : State where
  pc := 0x00
  mar := 0x00
  mbr := 0x00
  ir := 0x00
  a := 0x00
  running := true
  phase := .fetch
  lastOp := .none
  output := []
  trace := []
  mem := s.mem

/-- The statement that assembles to an instruction (R57): `.byte` for an unknown opcode. -/
def statementOf : Instr → AsmStatement
  | .ldi imm8 => .ldi imm8.toNat
  | .out => .out
  | .hlt => .hlt
  | .unknown op => .byte op.toNat

end Sys2Proof.Expected

/-! ### Encoding -/

/-- Words written out from the encodings of 30_encoding.md decode to the instructions they stand for. -/
def Obligations.SpecWordsDecode : Prop :=
  decode [0b00010000, 0b01000001] = .ok (.ldi 0x41, []) ∧
  decode [0b00010000, 0b11111111] = .ok (.ldi 0xFF, []) ∧
  decode [0b00100000] = .ok (.out, []) ∧
  decode [0b11111111] = .ok (.hlt, []) ∧
  decode [0b00000000] = .ok (.unknown 0x00, []) ∧
  decode [0b00001111] = .ok (.unknown 0x0F, []) ∧
  decode [0b00010001] = .ok (.unknown 0x11, []) ∧
  decode [0b00011111] = .ok (.unknown 0x1F, []) ∧
  decode [0b00100001] = .ok (.unknown 0x21, []) ∧
  decode [0b11111110] = .ok (.unknown 0xFE, [])

/-- Decoding the bytes of any well-formed instruction, whatever follows them, gives it back with every operand. -/
def Obligations.DecodeInvertsEncode : Prop :=
  ∀ i : Instr, i.wellFormed = true → ∀ rest : List Byte, decode (encode i ++ rest) = .ok (i, rest)

/-- What the decoder reads is well-formed, and its encoding is the bytes it was read from. -/
def Obligations.DecodedInstructionsReencode : Prop :=
  ∀ (bytes : List Byte) (i : Instr) (rest : List Byte), decode bytes = .ok (i, rest) →
    i.wellFormed = true ∧ encode i ++ rest = bytes

/-- The opcode map (R53): the three defined opcodes with their lengths, every other value unknown and one byte long,
and how many unknown values lie in each gap. -/
def Obligations.OpcodeMapIsTheTable : Prop :=
  (∀ (imm8 : Byte) (rest : List Byte), decode (0x10 :: imm8 :: rest) = .ok (.ldi imm8, rest)) ∧
  (∀ rest : List Byte, decode (0x20 :: rest) = .ok (.out, rest)) ∧
  (∀ rest : List Byte, decode (0xFF :: rest) = .ok (.hlt, rest)) ∧
  (∀ (op : Byte) (rest : List Byte), op ≠ 0x10 → op ≠ 0x20 → op ≠ 0xFF →
    decode (op :: rest) = .ok (.unknown op, rest)) ∧
  (∀ (s : State) (i : Instr) (rest : List Byte), decode (s.ir :: s.operandBytes) = .ok (i, rest) →
    decodeExecute s = exec i s) ∧
  (List.range' 0x00 16).countP (fun n => isUnknownOpcode (BitVec.ofNat 8 n)) = 16 ∧
  (List.range' 0x11 15).countP (fun n => isUnknownOpcode (BitVec.ofNat 8 n)) = 15 ∧
  (List.range' 0x21 222).countP (fun n => isUnknownOpcode (BitVec.ofNat 8 n)) = 222 ∧
  (List.range 256).countP (fun n => isUnknownOpcode (BitVec.ofNat 8 n)) = 253

/-- The length of an instruction is found from its opcode byte alone, 2 for 0x10 and 1 otherwise: the decoder takes so
many bytes, and a list with fewer is rejected by name. The last two clauses, that rejection, are the model's choice (log entry 10). -/
def Obligations.LengthComesFromOpcodeByte : Prop :=
  (∀ (op : Byte) (tail : List Byte) (i : Instr) (rest : List Byte), decode (op :: tail) = .ok (i, rest) →
    rest = (op :: tail).drop (if op = 0x10 then 2 else 1)) ∧
  decode [] = .error .noOpcodeByte ∧ decode [0x10] = .error .noOperandByte

/-- Each row of the opcode table, its bits numbered as the table numbers them, is read as its instruction with every
operand value, whatever bits stand above the row's. The layout of the bits as bytes, and that bits above the row's are
not read, are the model's choice (log entry 10). -/
def Obligations.TableWordsDecode : Prop :=
  (∀ (imm8 : Byte) (above : Nat), decodeTableWord 16 (0x10 + 256 * imm8.toNat + 65536 * above) = some (.ldi imm8)) ∧
  (∀ above : Nat, decodeTableWord 8 (0x20 + 256 * above) = some .out) ∧
  (∀ above : Nat, decodeTableWord 8 (0xFF + 256 * above) = some .hlt) ∧
  (∀ (op : Byte) (above : Nat), op ≠ 0x10 → op ≠ 0x20 → op ≠ 0xFF →
    decodeTableWord 8 (op.toNat + 256 * above) = some (.unknown op))

/-! ### Memory -/

/-- After the loader sets a cell, that cell reads as the byte set and every other as before. -/
def Obligations.ReadAfterLoaderWrite : Prop :=
  ∀ m : Memory, m.wf → ∀ addr other v : Byte,
    (m.write addr v).read other = if other = addr then v else m.read other

/-- Two memories in canonical form that read alike at every address are equal. -/
def Obligations.CanonicalMemoriesWithEqualReadsAreEqual : Prop :=
  ∀ m m' : Memory, m.wf → m'.wf → (∀ addr : Byte, m.read addr = m'.read addr) → m = m'

/-- Construction leaves the loader's image in memory and everything else at its reset value. -/
def Obligations.ConstructionHoldsTheImage : Prop :=
  ∀ image : Fin 256 → Byte,
    (∀ addr : Byte, (construct image).memRead addr = image addr.toFin) ∧
    construct image = { State.reset with mem := (construct image).mem } ∧
    applyReset (construct image) = construct image

/-- The memory never changes after construction (R33): no micro-step and no reset writes it, so it is the image in
every reachable state. -/
def Obligations.MemoryStaysTheImage : Prop :=
  (∀ s t : State, microStep s = some (.next t) → t.mem = s.mem) ∧
  (∀ s : State, (applyReset s).mem = s.mem) ∧
  (∀ (image : Fin 256 → Byte) (s : State), Reachable image s → ∀ addr : Byte, s.memRead addr = image addr.toFin)

/-! ### Reset -/

/-- The machine after reset. `phase` and `trace` are the spec's own decision D11, and the all-zero memory is that of
an engine with nothing loaded (log entry 3). -/
def Obligations.ResetValues : Prop :=
  State.reset.pc = 0x00 ∧ State.reset.mar = 0x00 ∧ State.reset.mbr = 0x00 ∧ State.reset.ir = 0x00 ∧
  State.reset.a = 0x00 ∧ State.reset.running = true ∧ State.reset.phase = .fetch ∧ State.reset.lastOp = .none ∧
  State.reset.output = [] ∧ State.reset.trace = [] ∧ ∀ addr : Byte, State.reset.memRead addr = 0x00

/-- Reset reinitialises everything but the memory, from any state, and the first record after it is the POST_FETCH of
the fetch at address 0 (the spec's own decision D11 for `phase` and `trace`). -/
def Obligations.ResetReinitialises : Prop :=
  (∀ s : State, applyReset s = Expected.afterReset s) ∧
  (∀ s t : State, s.mem = t.mem → applyReset s = applyReset t) ∧
  (∀ s : State, ∃ t, microStep (applyReset s) = some (.next t) ∧ t.trace = [⟨.postFetch, t.snapshot⟩] ∧
    t.mar = 0x00 ∧ t.ir = s.memRead 0x00)

/-! ### Fetch -/

/-- The fetch micro-step (R60), at every address and whatever the opcode. The `phase` and `trace` clauses are the
spec's decisions D2 and D9. -/
def Obligations.FetchMicroStep : Prop :=
  ∀ s : State, s.running = true → s.phase = .fetch → microStep s = some (.next (Expected.afterFetch s))

/-- The wrap law (R61): after a fetch, and after the advance inside `LDI`, `PC` is its old value plus one modulo 256. -/
def Obligations.PcAdvancesModulo256 : Prop :=
  (∀ s : State, s.running = true → s.phase = .fetch →
    ∃ t, microStep s = some (.next t) ∧ t.pc.toNat = (s.pc.toNat + 1) % 256) ∧
  (∀ s : State, s.running = true → s.phase = .execute → s.ir = 0x10 →
    ∃ t, microStep s = some (.next t) ∧ t.pc.toNat = (s.pc.toNat + 1) % 256)

/-! ### The instructions -/

/-- `LDI` completes in every Running state, with its result. The fields of its label are the spec's decision D8. That
exec answers so in a Running state where R59 enables no `LDI` (another phase or `IR`) is the model's choice (log entry
15), and that the operand is the instruction's own, whatever memory holds, is its inference (log entry 7). -/
def Obligations.ExecLdiCompletes : Prop :=
  ∀ (imm8 : Byte) (s : State), s.running = true → exec (.ldi imm8) s = .next (Expected.afterLdi imm8 s)

/-- `OUT` completes in every Running state, with its result, whatever the value of `A`. That exec answers so in a Running
state where R59 enables no `OUT` (another phase or `IR`) is the model's choice (log entry 15). -/
def Obligations.ExecOutCompletes : Prop :=
  ∀ s : State, s.running = true → exec .out s = .next (Expected.afterOut s)

/-- `HLT` completes in every state, with its result. That exec answers so where R59 enables no `HLT` (while Halted, or in
another phase or with another `IR`) is the model's choice (log entry 15): in the machine nothing runs while Halted. -/
def Obligations.ExecHltCompletes : Prop :=
  ∀ s : State, exec .hlt s = .next (Expected.afterHlt s)

/-- An unknown opcode completes in every state: its effect is the UnknownOpcode halt. That exec answers so where R59
enables no such micro-step (while Halted, or in another phase or with another `IR`) is the model's choice (log entry 15),
and that the opcode is the instruction's own, also one that is not unknown, is its inference (log entry 7). -/
def Obligations.ExecUnknownCompletes : Prop :=
  ∀ (op : Byte) (s : State), exec (.unknown op) s = .next (Expected.afterUnknown op s)

/-- `LDI` as a micro-step, with the operand read from memory at `PC`, and its net effect over the instruction step,
wherever it stands: at 0xFF its operand is the byte at 0x00. The label fields are the spec's decision D8. -/
def Obligations.LdiLoadsTheNextByte : Prop :=
  (∀ s : State, s.running = true → s.phase = .execute → s.ir = 0x10 →
    microStep s = some (.next (Expected.afterLdi (s.memRead s.pc) s))) ∧
  (∀ s : State, s.running = true → s.phase = .fetch → s.memRead s.pc = 0x10 →
    ∃ t, step s = .next t ∧ t.a = s.memRead (s.pc + 1) ∧ t.mar = s.pc + 1 ∧ t.mbr = s.memRead (s.pc + 1) ∧
      t.ir = 0x10 ∧ t.pc = s.pc + 2 ∧ t.lastOp = .load (s.pc + 1) (s.memRead (s.pc + 1)) ∧
      t.running = true ∧ t.output = s.output)

/-- The advance inside `LDI` (R75): one modulo 256 in its execute micro-step and two over its instruction step, and no
other arithmetic: the other registers take a value that stood in `PC` or memory. -/
def Obligations.LdiAdvancesPcByTwo : Prop :=
  (∀ s : State, s.running = true → s.phase = .execute → s.ir = 0x10 →
    ∃ t, microStep s = some (.next t) ∧ t.pc.toNat = (s.pc.toNat + 1) % 256 ∧
      t.a = s.memRead s.pc ∧ t.mbr = s.memRead s.pc ∧ t.mar = s.pc ∧ t.ir = s.ir) ∧
  (∀ s : State, s.running = true → s.phase = .fetch → s.memRead s.pc = 0x10 →
    ∃ t, step s = .next t ∧ t.pc.toNat = (s.pc.toNat + 2) % 256)

/-- `OUT` (R76): its encoding, its micro-step, and its net effect over the instruction step. The `phase` and `trace`
clauses are the spec's decisions D2 and D9. -/
def Obligations.OutEmitsTheAccumulator : Prop :=
  (∀ rest : List Byte, decode (0x20 :: rest) = .ok (.out, rest)) ∧
  (∀ s : State, s.running = true → s.phase = .execute → s.ir = 0x20 →
    microStep s = some (.next (Expected.afterOut s))) ∧
  (∀ s : State, s.running = true → s.phase = .fetch → s.memRead s.pc = 0x20 →
    ∃ t, step s = .next t ∧ t.output = s.output ++ [s.a] ∧ t.pc = s.pc + 1 ∧ t.mar = s.pc ∧ t.mbr = 0x20 ∧
      t.ir = 0x20 ∧ t.a = s.a ∧ t.lastOp = .out s.a ∧ t.running = true)

/-- `HLT` (R78): its encoding, its micro-step, after which no micro-step is enabled until reset, and its net effect
over the instruction step. The `phase` and `trace` clauses are the spec's decisions D2, D9 and D10. -/
def Obligations.HltHaltsUntilReset : Prop :=
  (∀ rest : List Byte, decode (0xFF :: rest) = .ok (.hlt, rest)) ∧
  (∀ s : State, s.running = true → s.phase = .execute → s.ir = 0xFF →
    microStep s = some (.next (Expected.afterHlt s)) ∧ microStep (Expected.afterHlt s) = none ∧
      (∀ n, advances n (Expected.afterHlt s) = .next (Expected.afterHlt s)) ∧
      (applyReset (Expected.afterHlt s)).running = true) ∧
  (∀ s : State, s.running = true → s.phase = .fetch → s.memRead s.pc = 0xFF →
    ∃ t, step s = .next t ∧ t.running = false ∧ t.pc = s.pc + 1 ∧ t.mar = s.pc ∧ t.mbr = 0xFF ∧ t.ir = 0xFF ∧
      t.lastOp = .halt ∧ t.a = s.a ∧ t.output = s.output)

/-- An unknown opcode (R79): its encoding, its micro-step, its net effect over the instruction step, and that an
execute micro-step always follows the fetch of its opcode, so that the `IR` of reset is never executed. The `phase`
and `trace` clauses are the spec's decisions D2, D9 and D10. -/
def Obligations.UnknownOpcodeHalts : Prop :=
  (∀ (u : Byte) (rest : List Byte), u ≠ 0x10 → u ≠ 0x20 → u ≠ 0xFF → decode (u :: rest) = .ok (.unknown u, rest)) ∧
  (∀ s : State, s.running = true → s.phase = .execute → s.ir ≠ 0x10 → s.ir ≠ 0x20 → s.ir ≠ 0xFF →
    microStep s = some (.next (Expected.afterUnknown s.ir s))) ∧
  (∀ s : State, s.running = true → s.phase = .fetch → s.memRead s.pc ≠ 0x10 → s.memRead s.pc ≠ 0x20 →
    s.memRead s.pc ≠ 0xFF →
    ∃ t, step s = .next t ∧ t.running = false ∧ t.pc = s.pc + 1 ∧ t.mar = s.pc ∧ t.mbr = s.memRead s.pc ∧
      t.ir = s.memRead s.pc ∧ t.lastOp = .unknown (s.memRead s.pc) ∧ t.a = s.a ∧ t.output = s.output) ∧
  (∀ (image : Fin 256 → Byte) (s : State), Reachable image s → s.phase = .execute →
    s.lastOp = .fetch s.mar s.ir ∧ s.ir = image s.mar.toFin)

/-- The execute micro-step dispatches on `IR` (R62): the four arms, with phase FETCH and the render points at the end,
and nothing else changed. The `phase` and `trace` clauses are the spec's decisions D2, D9 and D10. -/
def Obligations.ExecuteDispatchesOnIr : Prop :=
  (∀ s : State, s.running = true → s.phase = .execute →
    (s.ir = 0x10 → microStep s = some (exec (.ldi (s.memRead s.pc)) s)) ∧
    (s.ir = 0x20 → microStep s = some (exec .out s)) ∧
    (s.ir = 0xFF → microStep s = some (exec .hlt s)) ∧
    (s.ir ≠ 0x10 → s.ir ≠ 0x20 → s.ir ≠ 0xFF → microStep s = some (exec (.unknown s.ir) s))) ∧
  (∀ s : State, s.running = true → s.phase = .execute →
    ∃ t, microStep s = some (.next t) ∧ t.phase = .fetch ∧ t.ir = s.ir ∧ t.mem = s.mem ∧
      (s.ir ≠ 0x10 → t.pc = s.pc ∧ t.mar = s.mar ∧ t.mbr = s.mbr ∧ t.a = s.a) ∧
      (s.ir ≠ 0x20 → t.output = s.output) ∧
      (s.ir = 0x10 ∨ s.ir = 0x20 → t.running = true) ∧
      t.trace = s.trace ++ ⟨.postExecute, t.snapshot⟩ ::
        (if t.running then [] else [⟨.final, t.snapshot⟩]))

/-- The frame of the four instructions: what each leaves unchanged, memory at every address among it. It holds of exec in
every state, also where no micro-step of the instruction is enabled (the model's choice, log entry 15). -/
def Obligations.ExecFrame : Prop :=
  ∀ (i : Instr) (s t : State), exec i s = .next t →
    t.ir = s.ir ∧ (∀ addr : Byte, t.memRead addr = s.memRead addr) ∧ s.trace <+: t.trace ∧
    match i with
    | .ldi _ => t.running = s.running ∧ t.output = s.output
    | .out => t.pc = s.pc ∧ t.mar = s.mar ∧ t.mbr = s.mbr ∧ t.a = s.a ∧ t.running = s.running
    | .hlt => t.pc = s.pc ∧ t.mar = s.mar ∧ t.mbr = s.mbr ∧ t.a = s.a ∧ t.output = s.output
    | .unknown _ => t.pc = s.pc ∧ t.mar = s.mar ∧ t.mbr = s.mbr ∧ t.a = s.a ∧ t.output = s.output

/-- The "reads" column of R17's table: two states that agree on what a micro-step reads get the same values written. -/
def Obligations.WrittenValuesDependOnlyOnReads : Prop :=
  ∀ s s' t t' : State, microStep s = some (.next t) → microStep s' = some (.next t') → s.phase = s'.phase →
    (s.phase = .fetch → s.pc = s'.pc → s.memRead s.pc = s'.memRead s.pc →
      t.mar = t'.mar ∧ t.mbr = t'.mbr ∧ t.ir = t'.ir ∧ t.pc = t'.pc ∧ t.lastOp = t'.lastOp ∧ t.phase = t'.phase) ∧
    (s.phase = .execute → s.ir = s'.ir →
      t.phase = t'.phase ∧ t.running = t'.running ∧
      (s.ir = 0x10 → s.pc = s'.pc → s.memRead s.pc = s'.memRead s.pc →
        t.mar = t'.mar ∧ t.mbr = t'.mbr ∧ t.a = t'.a ∧ t.pc = t'.pc ∧ t.lastOp = t'.lastOp) ∧
      (s.ir = 0x20 → s.a = s'.a →
        t.lastOp = t'.lastOp ∧ ∃ b, t.output = s.output ++ [b] ∧ t'.output = s'.output ++ [b]) ∧
      (s.ir ≠ 0x10 → s.ir ≠ 0x20 → t.lastOp = t'.lastOp))

/-! ### The registers -/

/-- `A` (R16): only `LDI` writes it and only `OUT` reads it. With another value in `A`, any other micro-step leaves
the same state but for `A` itself and the records, which show it. -/
def Obligations.AccumulatorWrittenByLdiReadByOut : Prop :=
  (∀ s t : State, microStep s = some (.next t) →
    t.a = if s.phase = .execute ∧ s.ir = 0x10 then s.memRead s.pc else s.a) ∧
  (∀ s : State, s.running = true → s.phase = .execute → s.ir = 0x20 →
    ∃ t, microStep s = some (.next t) ∧ t.output = s.output ++ [s.a]) ∧
  (∀ (s t : State) (x : Byte), ¬(s.phase = .execute ∧ s.ir = 0x20) → microStep s = some (.next t) →
    ∃ t', microStep { s with a := x } = some (.next t') ∧ { t' with a := t.a, trace := t.trace } = t)

/-- `PC` (R12): it holds the address a fetch reads the opcode from and `LDI` the immediate; those two advance it by
one, from 0xFF to 0x00, and no other micro-step writes it. -/
def Obligations.PcOnlyAdvances : Prop :=
  (∀ s t : State, microStep s = some (.next t) →
    t.pc = (if s.phase = .fetch ∨ s.ir = 0x10 then s.pc + 1 else s.pc) ∧
    (s.phase = .fetch → t.ir = s.memRead s.pc) ∧
    (s.phase = .execute → s.ir = 0x10 → t.a = s.memRead s.pc)) ∧
  (∀ s t : State, microStep s = some (.next t) → s.phase = .fetch ∨ s.ir = 0x10 → s.pc = 0xFF → t.pc = 0x00)

/-- `MAR` (R13) is written with the address of every read and by nothing else, and reset leaves 0x00 in it. So is
`MBR` with the byte read, a clause of R14, which the spec marks as derived: the statement's basis is derived for it. -/
def Obligations.MarAndMbrLatchEveryRead : Prop :=
  (∀ s t : State, microStep s = some (.next t) →
    t.mar = (if s.phase = .fetch ∨ s.ir = 0x10 then s.pc else s.mar) ∧
    t.mbr = (if s.phase = .fetch ∨ s.ir = 0x10 then s.memRead s.pc else s.mbr)) ∧
  (∀ s : State, (applyReset s).mar = 0x00)

/-- `IR` (R15): only fetch writes it, and a Halted engine holds in it the opcode that halted it. -/
def Obligations.IrWrittenOnlyByFetch : Prop :=
  (∀ s t : State, microStep s = some (.next t) → t.ir = if s.phase = .fetch then s.memRead s.pc else s.ir) ∧
  (∀ s : State, s.running = true → s.phase = .execute →
    microStep s = some (decodeExecute s) ∧ ∃ i, decodeExecute s = exec i s ∧ i.opcode = s.ir) ∧
  (∀ (image : Fin 256 → Byte) (s : State), Reachable image s → s.running = false →
    (s.ir = 0xFF ∧ s.lastOp = .halt) ∨
    (s.ir ≠ 0x10 ∧ s.ir ≠ 0x20 ∧ s.ir ≠ 0xFF ∧ s.lastOp = .unknown s.ir))

/-- `last_op` (R21): every micro-step writes it, reset writes NONE, every snapshot holds it, and no micro-step reads
it. Which label each micro-step writes, with its fields, is the spec's decision D8 (R22, R74): the statement's basis is
derived for it. -/
def Obligations.EveryMicroStepLabels : Prop :=
  (∀ s t : State, microStep s = some (.next t) →
    t.lastOp = if s.phase = .fetch then .fetch s.pc (s.memRead s.pc)
      else if s.ir = 0x10 then .load s.pc (s.memRead s.pc)
      else if s.ir = 0x20 then .out s.a
      else if s.ir = 0xFF then .halt
      else .unknown s.ir) ∧
  (∀ s : State, (applyReset s).lastOp = .none) ∧
  (∀ s : State, s.snapshot.lastOp = s.lastOp) ∧
  (∀ (s : State) (l : Label), microStep { s with lastOp := l } = microStep s)

/-! ### Running, Halted and the run -/

/-- The state machine (R67): from each of Running/FETCH, Running/EXECUTE with each opcode, and Halted; after reset;
and that Halted with phase EXECUTE cannot be reached. The phases are the spec's decision D2. -/
def Obligations.StateMachineTransitions : Prop :=
  (∀ s : State, s.running = true → s.phase = .fetch →
    ∃ t, microStep s = some (.next t) ∧ t.running = true ∧ t.phase = .execute) ∧
  (∀ s : State, s.running = true → s.phase = .execute → s.ir = 0x10 ∨ s.ir = 0x20 →
    ∃ t, microStep s = some (.next t) ∧ t.running = true ∧ t.phase = .fetch) ∧
  (∀ s : State, s.running = true → s.phase = .execute → s.ir ≠ 0x10 → s.ir ≠ 0x20 →
    ∃ t, microStep s = some (.next t) ∧ t.running = false ∧ t.phase = .fetch) ∧
  (∀ s : State, s.running = false → microStep s = none) ∧
  (∀ s : State, (applyReset s).running = true ∧ (applyReset s).phase = .fetch) ∧
  (∀ (image : Fin 256 → Byte) (s : State), Reachable image s → s.running = false → s.phase = .fetch)

/-- The `running` flag (R18): reset sets it, the execute micro-steps of `HLT` and unknown opcodes clear it, nothing
else writes it, it never comes back without reset, the run loop tests it, and every snapshot holds it. In the two clauses
on `run` the bound is the model's choice (log entry 13), what a run asked of a Halted machine answers is its inference
(log entry 2), and what the step of a run begun in phase EXECUTE is, is its choice (log entry 9): the statement's basis is
derived for them. -/
def Obligations.RunningClearedOnlyByHalts : Prop :=
  (∀ s : State, (applyReset s).running = true) ∧
  (∀ s t : State, microStep s = some (.next t) →
    (t.running = false ↔ s.phase = .execute ∧ s.ir ≠ 0x10 ∧ s.ir ≠ 0x20)) ∧
  (∀ (n : Nat) (s t : State), s.running = false → advances n s = .next t → t.running = false) ∧
  (∀ (n : Nat) (s : State), s.running = false → run n s = .next s) ∧
  (∀ (n : Nat) (s : State), s.running = true → run (n + 1) s =
    match step s with
    | .next t => run n t
    | .fault r => .fault r
    | .refused r => .refused r) ∧
  (∀ s : State, s.snapshot.running = s.running)

/-- Halted is the only idle state, and everything in it keeps its value until reset (R94): no micro-step is enabled,
and any number of advances or steps leaves the state as it is. That a step asked of a Halted machine answers the same
state (the clause on `core.run`) is the model's inference (log entry 2), since R65 defines no step there. -/
def Obligations.HaltedStateIsFrozen : Prop :=
  (∀ s : State, s.running = true → ∃ t, microStep s = some (.next t)) ∧
  (∀ s : State, s.running = false → microStep s = none ∧ ∀ n, advances n s = .next s) ∧
  (∀ (n : Nat) (s : core.State), State.running s = false → core.run n s = .next s) ∧
  (∀ s : State, s.running = false → applyReset s = Expected.afterReset s)

/-- An instruction step is a fetch micro-step and then an execute micro-step (R65), and both states stand in the trace
as its render points (the spec's decisions D2, D9 and D10 for `phase` and `trace`). -/
def Obligations.StepIsFetchThenExecute : Prop :=
  ∀ s : State, s.running = true → s.phase = .fetch →
    ∃ m t, microStep s = some (.next m) ∧ m.running = true ∧ m.phase = .execute ∧
      microStep m = some (.next t) ∧ step s = .next t ∧
      t.trace = s.trace ++ ⟨.postFetch, m.snapshot⟩ :: ⟨.postExecute, t.snapshot⟩ ::
        (if t.running then [] else [⟨.final, t.snapshot⟩])

/-- A step runs the instruction its bytes decode to: after the fetch at an instruction boundary, at once between the
micro-steps of an instruction (log entry 9), and none while Halted (log entry 2). -/
def Obligations.StepRunsTheDecodedInstruction : Prop :=
  (∀ (s : State) (i : Instr) (rest : List Byte), s.running = true → s.phase = .fetch →
    decode [s.memRead s.pc, s.memRead (s.pc + 1)] = .ok (i, rest) → step s = exec i (fetch s)) ∧
  (∀ (s : State) (i : Instr) (rest : List Byte), s.running = true → s.phase = .execute →
    decode [s.ir, s.memRead s.pc] = .ok (i, rest) → step s = exec i s) ∧
  (∀ s : State, s.running = false → step s = .next s)

/-- Every step, every advance and every run completes, from every state: no address, opcode or value makes the machine
fault or refuse. What a step answers while Halted is the model's inference (log entry 2) and in phase EXECUTE its choice
(log entry 9), since R65 defines no step there; the bound of a run is its choice too (log entry 13). -/
def Obligations.EveryStepCompletes : Prop :=
  ∀ s : State, (∃ t, step s = .next t) ∧ (∃ t, advance s = .next t) ∧ ∀ n, ∃ t, run n s = .next t

/-- UnknownOpcode is the one exceptional condition (R81): a micro-step leaves the UNKNOWN label exactly when it is an
execute and `IR` holds none of the three defined opcodes, and no instruction but the default row raises it. The second
clause speaks of exec in every state, also where no micro-step is enabled (the model's choice, log entry 15), and the
opcode of its label is the instruction's own (the model's inference, log entry 7): the statement's basis is derived for it. -/
def Obligations.UnknownOpcodeIsTheOnlyException : Prop :=
  (∀ s t : State, microStep s = some (.next t) →
    ((∃ op, t.lastOp = .unknown op) ↔ s.phase = .execute ∧ s.ir ≠ 0x10 ∧ s.ir ≠ 0x20 ∧ s.ir ≠ 0xFF)) ∧
  (∀ (i : Instr) (op : Byte) (s t : State), exec i s = .next t → t.lastOp = .unknown op → i = .unknown op)

/-- The two ways of halting leave the same state but for the label, and the same render points. The labels are the
spec's decision D17. Running both from one state, with one `IR`, also while Halted and with any opcode, is possible only
because exec tests none of these (the model's choice, log entry 15; the opcode is the instruction's own, log entry 7). -/
def Obligations.HaltsDifferOnlyInLabel : Prop :=
  ∀ (op : Byte) (s : State), ∃ t u, exec .hlt s = .next t ∧ exec (.unknown op) s = .next u ∧
    t.lastOp = .halt ∧ u.lastOp = .unknown op ∧ { u with lastOp := t.lastOp, trace := t.trace } = t ∧
    u.points = t.points ∧ t.running = false

/-- Every micro-step appends the records of its render points, showing the state it leaves (the spec's decisions D9
and D10), and a run that has ended is complete. -/
def Obligations.MicroStepsRecordTheirRenderPoints : Prop :=
  ∀ s t : State, microStep s = some (.next t) →
    (s.phase = .fetch → t.trace = s.trace ++ [⟨.postFetch, t.snapshot⟩]) ∧
    (s.phase = .execute → t.trace = s.trace ++ ⟨.postExecute, t.snapshot⟩ ::
      (if t.running then [] else [⟨.final, t.snapshot⟩])) ∧
    (t.running = false → t.runComplete = true)

/-- Nothing reads the trace or the output back: with other contents in either, a micro-step appends the same elements
and leaves the rest the same (but for the records, which show the output). -/
def Obligations.TraceAndOutputAreNeverReadBack : Prop :=
  (∀ (s t : State) (trace : List TraceRecord), microStep s = some (.next t) →
    ∃ new, t.trace = s.trace ++ new ∧
      microStep { s with trace := trace } = some (.next { t with trace := trace ++ new })) ∧
  (∀ (s t : State) (output : List Byte), microStep s = some (.next t) →
    ∃ new t', t.output = s.output ++ new ∧ microStep { s with output := output } = some (.next t') ∧
      t'.output = output ++ new ∧ { t' with output := t.output, trace := t.trace } = t)

/-- A run from an instruction boundary leaves two records for each instruction executed, and one more if it ends, at
its last instruction (the spec's decision D10). The bound of the run is the model's choice (log entry 13). -/
def Obligations.RunLeavesTwoRecordsPerInstruction : Prop :=
  ∀ (n : Nat) (s : State), s.running = true → s.phase = .fetch →
    ∃ t, run n s = .next t ∧ t.phase = .fetch ∧
      ((t.running = true ∧ t.trace.length = s.trace.length + 2 * n) ∨
       (t.running = false ∧ t.runComplete = true ∧ ∃ k u, k < n ∧ run k s = .next u ∧ u.running = true ∧
          t.trace.length = s.trace.length + 2 * (k + 1) + 1))

/-- A run ends only at `HLT` or an unknown opcode: in a memory that holds none it goes on for any number of steps,
with `PC` at an instruction boundary after each. The bound of the run is the model's choice (log entry 13). -/
def Obligations.RunGoesOnWhileLoadsAndOutputs : Prop :=
  (∀ s : State, s.running = true → s.phase = .fetch →
    ∃ t, step s = .next t ∧ (t.running = false ↔ s.memRead s.pc ≠ 0x10 ∧ s.memRead s.pc ≠ 0x20)) ∧
  (∀ (n : Nat) (s : State), s.running = true → s.phase = .fetch →
    (∀ addr : Byte, s.memRead addr = 0x10 ∨ s.memRead addr = 0x20) →
    ∃ t, run n s = .next t ∧ t.running = true ∧ t.phase = .fetch)

/-! ### Invariants -/

/-- The invariant holds at reset, after construction with any image, and after a reset of any machine whose memory is
in canonical form. -/
def Obligations.ResetMeetsInvariant : Prop :=
  Inv State.reset ∧ (∀ image : Fin 256 → Byte, Inv (construct image)) ∧ ∀ s : State, s.mem.wf → Inv (applyReset s)

/-- Every micro-step keeps the invariant, from every state that meets it. -/
def Obligations.MicroStepKeepsInvariant : Prop :=
  ∀ s t : State, Inv s → microStep s = some (.next t) → Inv t

/-- Every step keeps the invariant, from every state that meets it. -/
def Obligations.StepKeepsInvariant : Prop :=
  ∀ s t : State, Inv s → step s = .next t → Inv t

/-- The invariants of R30, for every image and every state that construction, micro-steps and resets reach, and for
the run on from it without a reset: every register is in [0, 255]; `running` changes at most once; `output` and
`trace` are append-only; the memory is the image; and while Halted nothing changes. -/
def Obligations.ReachableStatesKeepTheSpecInvariants : Prop :=
  ∀ (image : Fin 256 → Byte) (s : State), Reachable image s →
    (s.pc.toNat ≤ 255 ∧ s.mar.toNat ≤ 255 ∧ s.mbr.toNat ≤ 255 ∧ s.ir.toNat ≤ 255 ∧ s.a.toNat ≤ 255) ∧
    (∀ addr : Byte, s.memRead addr = image addr.toFin) ∧
    (∀ n, ∃ t, advances n s = .next t ∧ s.output <+: t.output ∧ s.trace <+: t.trace ∧ t.mem = s.mem ∧
      (s.running = false → t = s) ∧
      (t.running = false → s.running = true →
        ∃ k u, k < n ∧ advances k s = .next u ∧ u.running = true ∧ u.phase = .execute ∧ u.ir ≠ 0x10 ∧ u.ir ≠ 0x20 ∧
          microStep u = some (.next t)))

/-! ### Placing, layout, presentation and assembly -/

/-- The instruction that a table word decodes to is the one the next step runs after `withFetchWord` (log entry 4). -/
def Obligations.PlacedInstructionIsTheOneRun : Prop :=
  ∀ (s : State) (nbits w : Nat) (i : Instr), s.mem.wf → decodeTableWord nbits w = some i →
    step (s.withFetchWord nbits w) = exec i (fetch (s.withFetchWord nbits w))

/-- The hardware layout of a record loses nothing but the bytes of the output, and in every state that meets the
invariant those are the first `out_len` bytes of the output (the spec's decision D9). -/
def Obligations.HardwareRecordsLoseNothing : Prop :=
  (∀ r r' : TraceRecord, r.toHw = r'.toHw → r.snapshot.output = r'.snapshot.output → r = r') ∧
  (∀ s : State, Inv s → ∀ r ∈ s.trace, r.snapshot.output = s.output.take r.toHw.outLen)

/-- What any admissible presentation shows: nothing after reset, "HLT" after `HLT`, a text with "UNKNOWN" after an
unknown opcode, and after `OUT` one more character, the one with that code for a byte below 0x80 and one out of the ASCII
range for any other (the spec's decisions D7 and D8). How `Admissible` reads "shows a byte" is the model's choice (log
entry 11), and so is that exec answers where no micro-step of the instruction is enabled (log entry 15). -/
def Obligations.PresentationsShowTheSpecTexts : Prop :=
  ∀ (p : Presentation) (s : State), p.Admissible →
    p.shownLabel (applyReset s).snapshot = "" ∧
    (∃ t, exec .hlt s = .next t ∧ p.shownLabel t.snapshot = "HLT") ∧
    (∀ op, ∃ t, exec (.unknown op) s = .next t ∧ Within "UNKNOWN" (p.shownLabel t.snapshot)) ∧
    (s.a.toNat < 0x80 → ∃ t, exec .out s = .next t ∧
      p.shownOutput t.snapshot = p.shownOutput s.snapshot ++ [Char.ofNat s.a.toNat]) ∧
    (0x80 ≤ s.a.toNat → ∃ t c, exec .out s = .next t ∧
      p.shownOutput t.snapshot = p.shownOutput s.snapshot ++ [c] ∧ 0x80 ≤ c.toNat)

/-- A program of at most 256 bytes assembles to the image that holds its encodings one after another from address 0,
and the fill byte after them; a number above 255 is an error, not a wrap (the spec's decision D15). That a program
without `.org` starts at address 0, and that the number of `.byte` or `.org` is held to the range as `<imm>` is, are the
model's choices (log entry 12), which R57 leaves open. -/
def Obligations.AssembledProgramsFillTheImage : Prop :=
  (∀ program : List Instr, (program.flatMap encode).length ≤ 256 →
    ∃ image, assemble (program.map Expected.statementOf) = .ok image ∧
      ∀ i : Fin 256, image i = ((program.flatMap encode)[i.val]?).getD 0x00) ∧
  (∀ n : Nat, 256 ≤ n → assemble [.ldi n] = .error .numberOutOfRange ∧
    assemble [.byte n] = .error .numberOutOfRange ∧ assemble [.org n] = .error .numberOutOfRange)
end

