-- ==== Sys2Proof/Laws/Decode.lean ====
section
/-! SUPPORT. The small lemmas of the decoder, the unknown opcodes and the operand bytes. -/

namespace Sys2Proof

theorem isUnknownOpcode_iff (op : Byte) :
    isUnknownOpcode op = true ↔ op ≠ opcodeLdi ∧ op ≠ opcodeOut ∧ op ≠ opcodeHlt := by
  simp [isUnknownOpcode, and_assoc]

/-- Every opcode byte falls under one row of the map (R53). -/
theorem opcode_cases (op : Byte) :
    op = opcodeLdi ∨ op = opcodeOut ∨ op = opcodeHlt ∨ isUnknownOpcode op = true := by
  rw [isUnknownOpcode_iff]; tauto

theorem opcodeOut_ne_opcodeLdi : opcodeOut ≠ opcodeLdi := by decide

theorem opcodeHlt_ne_opcodeLdi : opcodeHlt ≠ opcodeLdi := by decide

theorem opcodeHlt_ne_opcodeOut : opcodeHlt ≠ opcodeOut := by decide

theorem decode_opcodeLdi (imm8 : Byte) (rest : List Byte) :
    decode (opcodeLdi :: imm8 :: rest) = .ok (.ldi imm8, rest) := by
  simp [decode]

theorem decode_opcodeOut (rest : List Byte) : decode (opcodeOut :: rest) = .ok (.out, rest) := by
  simp [decode, opcodeOut_ne_opcodeLdi]

theorem decode_opcodeHlt (rest : List Byte) : decode (opcodeHlt :: rest) = .ok (.hlt, rest) := by
  simp [decode, opcodeHlt_ne_opcodeLdi, opcodeHlt_ne_opcodeOut]

theorem decode_unknown {op : Byte} (h : isUnknownOpcode op = true) (rest : List Byte) :
    decode (op :: rest) = .ok (.unknown op, rest) := by
  obtain ⟨h1, h2, h3⟩ := (isUnknownOpcode_iff op).1 h
  simp [decode, h1, h2, h3]

/-- Everything a decoding can be. -/
theorem decode_cases {bytes : List Byte} {i : Instr} {rest : List Byte} (h : decode bytes = .ok (i, rest)) :
    (∃ imm8, i = .ldi imm8 ∧ bytes = opcodeLdi :: imm8 :: rest) ∨
    (i = .out ∧ bytes = opcodeOut :: rest) ∨
    (i = .hlt ∧ bytes = opcodeHlt :: rest) ∨
    (∃ op, i = .unknown op ∧ isUnknownOpcode op = true ∧ bytes = op :: rest) := by
  cases bytes with
  | nil => simp [decode] at h
  | cons op tail =>
    rcases opcode_cases op with rfl | rfl | rfl | hu
    · cases tail with
      | nil => simp [decode] at h
      | cons imm8 tail =>
        simp only [decode_opcodeLdi, Except.ok.injEq, Prod.mk.injEq] at h
        exact .inl ⟨imm8, h.1.symm, by rw [h.2]⟩
    · simp only [decode_opcodeOut, Except.ok.injEq, Prod.mk.injEq] at h
      exact .inr (.inl ⟨h.1.symm, by rw [h.2]⟩)
    · simp only [decode_opcodeHlt, Except.ok.injEq, Prod.mk.injEq] at h
      exact .inr (.inr (.inl ⟨h.1.symm, by rw [h.2]⟩))
    · simp only [decode_unknown hu, Except.ok.injEq, Prod.mk.injEq] at h
      exact .inr (.inr (.inr ⟨op, h.1.symm, hu, by rw [h.2]⟩))

end Sys2Proof

namespace Sys2Proof.Machine

theorem State.operandBytes_of_ldi {s : State} (h : s.ir = opcodeLdi) : s.operandBytes = [s.memRead s.pc] := by
  simp [State.operandBytes, instrLength, h]

theorem State.operandBytes_of_ne_ldi {s : State} (h : s.ir ≠ opcodeLdi) : s.operandBytes = [] := by
  simp [State.operandBytes, instrLength, h]

end Sys2Proof.Machine
end

