-- ==== Sys2Proof/Laws/State.lean ====
section
/-! SUPPORT. What each update of State leaves in each field: one lemma per field per update, so that no proof unfolds
a record update. Then the same for the operations made of several updates. -/

namespace Sys2Proof.Machine

/-! ### latchRead -/

@[simp] theorem State.latchRead_pc (s : State) (addr data : Byte) : (s.latchRead addr data).pc = s.pc := rfl

@[simp] theorem State.latchRead_mar (s : State) (addr data : Byte) : (s.latchRead addr data).mar = addr := rfl

@[simp] theorem State.latchRead_mbr (s : State) (addr data : Byte) : (s.latchRead addr data).mbr = data := rfl

@[simp] theorem State.latchRead_ir (s : State) (addr data : Byte) : (s.latchRead addr data).ir = s.ir := rfl

@[simp] theorem State.latchRead_a (s : State) (addr data : Byte) : (s.latchRead addr data).a = s.a := rfl

@[simp] theorem State.latchRead_running (s : State) (addr data : Byte) : (s.latchRead addr data).running = s.running := rfl

@[simp] theorem State.latchRead_phase (s : State) (addr data : Byte) : (s.latchRead addr data).phase = s.phase := rfl

@[simp] theorem State.latchRead_lastOp (s : State) (addr data : Byte) : (s.latchRead addr data).lastOp = s.lastOp := rfl

@[simp] theorem State.latchRead_output (s : State) (addr data : Byte) : (s.latchRead addr data).output = s.output := rfl

@[simp] theorem State.latchRead_trace (s : State) (addr data : Byte) : (s.latchRead addr data).trace = s.trace := rfl

@[simp] theorem State.latchRead_mem (s : State) (addr data : Byte) : (s.latchRead addr data).mem = s.mem := rfl

@[simp] theorem State.latchRead_memRead (s : State) (addr data : Byte) (x : Byte) : (s.latchRead addr data).memRead x = s.memRead x := rfl

/-! ### advancePc -/

@[simp] theorem State.advancePc_pc (s : State) : s.advancePc.pc = inc8 s.pc := rfl

@[simp] theorem State.advancePc_mar (s : State) : s.advancePc.mar = s.mar := rfl

@[simp] theorem State.advancePc_mbr (s : State) : s.advancePc.mbr = s.mbr := rfl

@[simp] theorem State.advancePc_ir (s : State) : s.advancePc.ir = s.ir := rfl

@[simp] theorem State.advancePc_a (s : State) : s.advancePc.a = s.a := rfl

@[simp] theorem State.advancePc_running (s : State) : s.advancePc.running = s.running := rfl

@[simp] theorem State.advancePc_phase (s : State) : s.advancePc.phase = s.phase := rfl

@[simp] theorem State.advancePc_lastOp (s : State) : s.advancePc.lastOp = s.lastOp := rfl

@[simp] theorem State.advancePc_output (s : State) : s.advancePc.output = s.output := rfl

@[simp] theorem State.advancePc_trace (s : State) : s.advancePc.trace = s.trace := rfl

@[simp] theorem State.advancePc_mem (s : State) : s.advancePc.mem = s.mem := rfl

@[simp] theorem State.advancePc_memRead (s : State) (x : Byte) : s.advancePc.memRead x = s.memRead x := rfl

/-! ### setIr -/

@[simp] theorem State.setIr_pc (s : State) (op : Byte) : (s.setIr op).pc = s.pc := rfl

@[simp] theorem State.setIr_mar (s : State) (op : Byte) : (s.setIr op).mar = s.mar := rfl

@[simp] theorem State.setIr_mbr (s : State) (op : Byte) : (s.setIr op).mbr = s.mbr := rfl

@[simp] theorem State.setIr_ir (s : State) (op : Byte) : (s.setIr op).ir = op := rfl

@[simp] theorem State.setIr_a (s : State) (op : Byte) : (s.setIr op).a = s.a := rfl

@[simp] theorem State.setIr_running (s : State) (op : Byte) : (s.setIr op).running = s.running := rfl

@[simp] theorem State.setIr_phase (s : State) (op : Byte) : (s.setIr op).phase = s.phase := rfl

@[simp] theorem State.setIr_lastOp (s : State) (op : Byte) : (s.setIr op).lastOp = s.lastOp := rfl

@[simp] theorem State.setIr_output (s : State) (op : Byte) : (s.setIr op).output = s.output := rfl

@[simp] theorem State.setIr_trace (s : State) (op : Byte) : (s.setIr op).trace = s.trace := rfl

@[simp] theorem State.setIr_mem (s : State) (op : Byte) : (s.setIr op).mem = s.mem := rfl

@[simp] theorem State.setIr_memRead (s : State) (op : Byte) (x : Byte) : (s.setIr op).memRead x = s.memRead x := rfl

/-! ### setA -/

@[simp] theorem State.setA_pc (s : State) (v : Byte) : (s.setA v).pc = s.pc := rfl

@[simp] theorem State.setA_mar (s : State) (v : Byte) : (s.setA v).mar = s.mar := rfl

@[simp] theorem State.setA_mbr (s : State) (v : Byte) : (s.setA v).mbr = s.mbr := rfl

@[simp] theorem State.setA_ir (s : State) (v : Byte) : (s.setA v).ir = s.ir := rfl

@[simp] theorem State.setA_a (s : State) (v : Byte) : (s.setA v).a = v := rfl

@[simp] theorem State.setA_running (s : State) (v : Byte) : (s.setA v).running = s.running := rfl

@[simp] theorem State.setA_phase (s : State) (v : Byte) : (s.setA v).phase = s.phase := rfl

@[simp] theorem State.setA_lastOp (s : State) (v : Byte) : (s.setA v).lastOp = s.lastOp := rfl

@[simp] theorem State.setA_output (s : State) (v : Byte) : (s.setA v).output = s.output := rfl

@[simp] theorem State.setA_trace (s : State) (v : Byte) : (s.setA v).trace = s.trace := rfl

@[simp] theorem State.setA_mem (s : State) (v : Byte) : (s.setA v).mem = s.mem := rfl

@[simp] theorem State.setA_memRead (s : State) (v : Byte) (x : Byte) : (s.setA v).memRead x = s.memRead x := rfl

/-! ### setLastOp -/

@[simp] theorem State.setLastOp_pc (s : State) (l : Label) : (s.setLastOp l).pc = s.pc := rfl

@[simp] theorem State.setLastOp_mar (s : State) (l : Label) : (s.setLastOp l).mar = s.mar := rfl

@[simp] theorem State.setLastOp_mbr (s : State) (l : Label) : (s.setLastOp l).mbr = s.mbr := rfl

@[simp] theorem State.setLastOp_ir (s : State) (l : Label) : (s.setLastOp l).ir = s.ir := rfl

@[simp] theorem State.setLastOp_a (s : State) (l : Label) : (s.setLastOp l).a = s.a := rfl

@[simp] theorem State.setLastOp_running (s : State) (l : Label) : (s.setLastOp l).running = s.running := rfl

@[simp] theorem State.setLastOp_phase (s : State) (l : Label) : (s.setLastOp l).phase = s.phase := rfl

@[simp] theorem State.setLastOp_lastOp (s : State) (l : Label) : (s.setLastOp l).lastOp = l := rfl

@[simp] theorem State.setLastOp_output (s : State) (l : Label) : (s.setLastOp l).output = s.output := rfl

@[simp] theorem State.setLastOp_trace (s : State) (l : Label) : (s.setLastOp l).trace = s.trace := rfl

@[simp] theorem State.setLastOp_mem (s : State) (l : Label) : (s.setLastOp l).mem = s.mem := rfl

@[simp] theorem State.setLastOp_memRead (s : State) (l : Label) (x : Byte) : (s.setLastOp l).memRead x = s.memRead x := rfl

/-! ### setPhase -/

@[simp] theorem State.setPhase_pc (s : State) (p : Phase) : (s.setPhase p).pc = s.pc := rfl

@[simp] theorem State.setPhase_mar (s : State) (p : Phase) : (s.setPhase p).mar = s.mar := rfl

@[simp] theorem State.setPhase_mbr (s : State) (p : Phase) : (s.setPhase p).mbr = s.mbr := rfl

@[simp] theorem State.setPhase_ir (s : State) (p : Phase) : (s.setPhase p).ir = s.ir := rfl

@[simp] theorem State.setPhase_a (s : State) (p : Phase) : (s.setPhase p).a = s.a := rfl

@[simp] theorem State.setPhase_running (s : State) (p : Phase) : (s.setPhase p).running = s.running := rfl

@[simp] theorem State.setPhase_phase (s : State) (p : Phase) : (s.setPhase p).phase = p := rfl

@[simp] theorem State.setPhase_lastOp (s : State) (p : Phase) : (s.setPhase p).lastOp = s.lastOp := rfl

@[simp] theorem State.setPhase_output (s : State) (p : Phase) : (s.setPhase p).output = s.output := rfl

@[simp] theorem State.setPhase_trace (s : State) (p : Phase) : (s.setPhase p).trace = s.trace := rfl

@[simp] theorem State.setPhase_mem (s : State) (p : Phase) : (s.setPhase p).mem = s.mem := rfl

@[simp] theorem State.setPhase_memRead (s : State) (p : Phase) (x : Byte) : (s.setPhase p).memRead x = s.memRead x := rfl

/-! ### appendOutput -/

@[simp] theorem State.appendOutput_pc (s : State) (b : Byte) : (s.appendOutput b).pc = s.pc := rfl

@[simp] theorem State.appendOutput_mar (s : State) (b : Byte) : (s.appendOutput b).mar = s.mar := rfl

@[simp] theorem State.appendOutput_mbr (s : State) (b : Byte) : (s.appendOutput b).mbr = s.mbr := rfl

@[simp] theorem State.appendOutput_ir (s : State) (b : Byte) : (s.appendOutput b).ir = s.ir := rfl

@[simp] theorem State.appendOutput_a (s : State) (b : Byte) : (s.appendOutput b).a = s.a := rfl

@[simp] theorem State.appendOutput_running (s : State) (b : Byte) : (s.appendOutput b).running = s.running := rfl

@[simp] theorem State.appendOutput_phase (s : State) (b : Byte) : (s.appendOutput b).phase = s.phase := rfl

@[simp] theorem State.appendOutput_lastOp (s : State) (b : Byte) : (s.appendOutput b).lastOp = s.lastOp := rfl

@[simp] theorem State.appendOutput_output (s : State) (b : Byte) : (s.appendOutput b).output = s.output ++ [b] := rfl

@[simp] theorem State.appendOutput_trace (s : State) (b : Byte) : (s.appendOutput b).trace = s.trace := rfl

@[simp] theorem State.appendOutput_mem (s : State) (b : Byte) : (s.appendOutput b).mem = s.mem := rfl

@[simp] theorem State.appendOutput_memRead (s : State) (b : Byte) (x : Byte) : (s.appendOutput b).memRead x = s.memRead x := rfl

/-! ### clearRunning -/

@[simp] theorem State.clearRunning_pc (s : State) : s.clearRunning.pc = s.pc := rfl

@[simp] theorem State.clearRunning_mar (s : State) : s.clearRunning.mar = s.mar := rfl

@[simp] theorem State.clearRunning_mbr (s : State) : s.clearRunning.mbr = s.mbr := rfl

@[simp] theorem State.clearRunning_ir (s : State) : s.clearRunning.ir = s.ir := rfl

@[simp] theorem State.clearRunning_a (s : State) : s.clearRunning.a = s.a := rfl

@[simp] theorem State.clearRunning_running (s : State) : s.clearRunning.running = false := rfl

@[simp] theorem State.clearRunning_phase (s : State) : s.clearRunning.phase = s.phase := rfl

@[simp] theorem State.clearRunning_lastOp (s : State) : s.clearRunning.lastOp = s.lastOp := rfl

@[simp] theorem State.clearRunning_output (s : State) : s.clearRunning.output = s.output := rfl

@[simp] theorem State.clearRunning_trace (s : State) : s.clearRunning.trace = s.trace := rfl

@[simp] theorem State.clearRunning_mem (s : State) : s.clearRunning.mem = s.mem := rfl

@[simp] theorem State.clearRunning_memRead (s : State) (x : Byte) : s.clearRunning.memRead x = s.memRead x := rfl

/-! ### emit -/

@[simp] theorem State.emit_pc (s : State) (p : RenderPoint) : (s.emit p).pc = s.pc := rfl

@[simp] theorem State.emit_mar (s : State) (p : RenderPoint) : (s.emit p).mar = s.mar := rfl

@[simp] theorem State.emit_mbr (s : State) (p : RenderPoint) : (s.emit p).mbr = s.mbr := rfl

@[simp] theorem State.emit_ir (s : State) (p : RenderPoint) : (s.emit p).ir = s.ir := rfl

@[simp] theorem State.emit_a (s : State) (p : RenderPoint) : (s.emit p).a = s.a := rfl

@[simp] theorem State.emit_running (s : State) (p : RenderPoint) : (s.emit p).running = s.running := rfl

@[simp] theorem State.emit_phase (s : State) (p : RenderPoint) : (s.emit p).phase = s.phase := rfl

@[simp] theorem State.emit_lastOp (s : State) (p : RenderPoint) : (s.emit p).lastOp = s.lastOp := rfl

@[simp] theorem State.emit_output (s : State) (p : RenderPoint) : (s.emit p).output = s.output := rfl

@[simp] theorem State.emit_trace (s : State) (p : RenderPoint) :
    (s.emit p).trace = s.trace ++ [{ point := p, snapshot := s.snapshot }] := rfl

@[simp] theorem State.emit_mem (s : State) (p : RenderPoint) : (s.emit p).mem = s.mem := rfl

@[simp] theorem State.emit_memRead (s : State) (p : RenderPoint) (x : Byte) : (s.emit p).memRead x = s.memRead x := rfl

/-! ### halt -/

@[simp] theorem State.halt_pc (s : State) (l : Label) : (s.halt l).pc = s.pc := rfl

@[simp] theorem State.halt_mar (s : State) (l : Label) : (s.halt l).mar = s.mar := rfl

@[simp] theorem State.halt_mbr (s : State) (l : Label) : (s.halt l).mbr = s.mbr := rfl

@[simp] theorem State.halt_ir (s : State) (l : Label) : (s.halt l).ir = s.ir := rfl

@[simp] theorem State.halt_a (s : State) (l : Label) : (s.halt l).a = s.a := rfl

@[simp] theorem State.halt_running (s : State) (l : Label) : (s.halt l).running = false := rfl

@[simp] theorem State.halt_phase (s : State) (l : Label) : (s.halt l).phase = s.phase := rfl

@[simp] theorem State.halt_lastOp (s : State) (l : Label) : (s.halt l).lastOp = l := rfl

@[simp] theorem State.halt_output (s : State) (l : Label) : (s.halt l).output = s.output := rfl

@[simp] theorem State.halt_trace (s : State) (l : Label) : (s.halt l).trace = s.trace := rfl

@[simp] theorem State.halt_mem (s : State) (l : Label) : (s.halt l).mem = s.mem := rfl

/-! ### applyReset and construct -/

@[simp] theorem applyReset_pc (s : State) : (applyReset s).pc = State.reset.pc := rfl

@[simp] theorem applyReset_mar (s : State) : (applyReset s).mar = State.reset.mar := rfl

@[simp] theorem applyReset_mbr (s : State) : (applyReset s).mbr = State.reset.mbr := rfl

@[simp] theorem applyReset_ir (s : State) : (applyReset s).ir = State.reset.ir := rfl

@[simp] theorem applyReset_a (s : State) : (applyReset s).a = State.reset.a := rfl

@[simp] theorem applyReset_running (s : State) : (applyReset s).running = State.reset.running := rfl

@[simp] theorem applyReset_phase (s : State) : (applyReset s).phase = State.reset.phase := rfl

@[simp] theorem applyReset_lastOp (s : State) : (applyReset s).lastOp = State.reset.lastOp := rfl

@[simp] theorem applyReset_output (s : State) : (applyReset s).output = State.reset.output := rfl

@[simp] theorem applyReset_trace (s : State) : (applyReset s).trace = State.reset.trace := rfl

@[simp] theorem applyReset_mem (s : State) : (applyReset s).mem = s.mem := rfl

@[simp] theorem construct_pc (image : Fin 256 → Byte) : (construct image).pc = State.reset.pc := rfl

@[simp] theorem construct_mar (image : Fin 256 → Byte) : (construct image).mar = State.reset.mar := rfl

@[simp] theorem construct_mbr (image : Fin 256 → Byte) : (construct image).mbr = State.reset.mbr := rfl

@[simp] theorem construct_ir (image : Fin 256 → Byte) : (construct image).ir = State.reset.ir := rfl

@[simp] theorem construct_a (image : Fin 256 → Byte) : (construct image).a = State.reset.a := rfl

@[simp] theorem construct_running (image : Fin 256 → Byte) : (construct image).running = State.reset.running := rfl

@[simp] theorem construct_phase (image : Fin 256 → Byte) : (construct image).phase = State.reset.phase := rfl

@[simp] theorem construct_lastOp (image : Fin 256 → Byte) : (construct image).lastOp = State.reset.lastOp := rfl

@[simp] theorem construct_output (image : Fin 256 → Byte) : (construct image).output = State.reset.output := rfl

@[simp] theorem construct_trace (image : Fin 256 → Byte) : (construct image).trace = State.reset.trace := rfl

@[simp] theorem construct_mem (image : Fin 256 → Byte) : (construct image).mem = Memory.ofImage image := rfl

/-! ### snapshot -/

@[simp] theorem State.snapshot_pc (s : State) : s.snapshot.pc = s.pc := rfl

@[simp] theorem State.snapshot_mar (s : State) : s.snapshot.mar = s.mar := rfl

@[simp] theorem State.snapshot_mbr (s : State) : s.snapshot.mbr = s.mbr := rfl

@[simp] theorem State.snapshot_ir (s : State) : s.snapshot.ir = s.ir := rfl

@[simp] theorem State.snapshot_a (s : State) : s.snapshot.a = s.a := rfl

@[simp] theorem State.snapshot_lastOp (s : State) : s.snapshot.lastOp = s.lastOp := rfl

@[simp] theorem State.snapshot_output (s : State) : s.snapshot.output = s.output := rfl

@[simp] theorem State.snapshot_running (s : State) : s.snapshot.running = s.running := rfl

@[simp] theorem State.setPhase_snapshot (s : State) (p : Phase) : (s.setPhase p).snapshot = s.snapshot := rfl

@[simp] theorem State.emit_snapshot (s : State) (p : RenderPoint) : (s.emit p).snapshot = s.snapshot := rfl

/-! ### endExecute -/

theorem State.endExecute_of_running (s : State) (h : s.running = true) :
    s.endExecute = (s.setPhase .fetch).emit .postExecute := by
  simp [State.endExecute, h]

theorem State.endExecute_of_halted (s : State) (h : s.running = false) :
    s.endExecute = ((s.setPhase .fetch).emit .postExecute).emit .final := by
  simp [State.endExecute, h]

@[simp] theorem State.endExecute_pc (s : State) : s.endExecute.pc = s.pc := by
  simp only [State.endExecute]; split <;> simp

@[simp] theorem State.endExecute_mar (s : State) : s.endExecute.mar = s.mar := by
  simp only [State.endExecute]; split <;> simp

@[simp] theorem State.endExecute_mbr (s : State) : s.endExecute.mbr = s.mbr := by
  simp only [State.endExecute]; split <;> simp

@[simp] theorem State.endExecute_ir (s : State) : s.endExecute.ir = s.ir := by
  simp only [State.endExecute]; split <;> simp

@[simp] theorem State.endExecute_a (s : State) : s.endExecute.a = s.a := by
  simp only [State.endExecute]; split <;> simp

@[simp] theorem State.endExecute_running (s : State) : s.endExecute.running = s.running := by
  simp only [State.endExecute]; split <;> simp

@[simp] theorem State.endExecute_phase (s : State) : s.endExecute.phase = .fetch := by
  simp only [State.endExecute]; split <;> simp

@[simp] theorem State.endExecute_lastOp (s : State) : s.endExecute.lastOp = s.lastOp := by
  simp only [State.endExecute]; split <;> simp

@[simp] theorem State.endExecute_output (s : State) : s.endExecute.output = s.output := by
  simp only [State.endExecute]; split <;> simp

@[simp] theorem State.endExecute_mem (s : State) : s.endExecute.mem = s.mem := by
  simp only [State.endExecute]; split <;> simp

@[simp] theorem State.endExecute_snapshot (s : State) : s.endExecute.snapshot = s.snapshot := by
  simp only [State.endExecute]; split <;> simp

/-- The records an execute micro-step leaves (R70). -/
@[simp] theorem State.endExecute_trace (s : State) :
    s.endExecute.trace = s.trace ++ { point := .postExecute, snapshot := s.snapshot } ::
      (if s.running then [] else [{ point := .final, snapshot := s.snapshot }]) := by
  cases h : s.running <;> simp [State.endExecute, h]

end Sys2Proof.Machine
end

