-- ==== Sys2Proof/Laws/Cycle.lean ====
section
/-! SUPPORT. What the two micro-steps, the micro-step relation and the step can do, said once. -/

namespace Sys2Proof.Machine

/-! ### fetch -/

@[simp] theorem fetch_pc (s : State) : (fetch s).pc = inc8 s.pc := rfl

@[simp] theorem fetch_mar (s : State) : (fetch s).mar = s.pc := rfl

@[simp] theorem fetch_mbr (s : State) : (fetch s).mbr = s.memRead s.pc := rfl

@[simp] theorem fetch_ir (s : State) : (fetch s).ir = s.memRead s.pc := rfl

@[simp] theorem fetch_a (s : State) : (fetch s).a = s.a := rfl

@[simp] theorem fetch_running (s : State) : (fetch s).running = s.running := rfl

@[simp] theorem fetch_phase (s : State) : (fetch s).phase = .execute := rfl

@[simp] theorem fetch_lastOp (s : State) : (fetch s).lastOp = .fetch s.pc (s.memRead s.pc) := rfl

@[simp] theorem fetch_output (s : State) : (fetch s).output = s.output := rfl

@[simp] theorem fetch_mem (s : State) : (fetch s).mem = s.mem := rfl

@[simp] theorem fetch_memRead (s : State) (x : Byte) : (fetch s).memRead x = s.memRead x := rfl

@[simp] theorem fetch_trace (s : State) :
    (fetch s).trace = s.trace ++ [{ point := .postFetch, snapshot := (fetch s).snapshot }] := rfl

/-! ### decodeExecute: the dispatch on `IR` (R62) -/

theorem decodeExecute_ldi {s : State} (h : s.ir = opcodeLdi) :
    decodeExecute s = exec (.ldi (s.memRead s.pc)) s := by
  rw [decodeExecute, State.operandBytes_of_ldi h, h, decode_opcodeLdi]

theorem decodeExecute_out {s : State} (h : s.ir = opcodeOut) : decodeExecute s = exec .out s := by
  rw [decodeExecute, State.operandBytes_of_ne_ldi (h ▸ opcodeOut_ne_opcodeLdi), h, decode_opcodeOut]

theorem decodeExecute_hlt {s : State} (h : s.ir = opcodeHlt) : decodeExecute s = exec .hlt s := by
  rw [decodeExecute, State.operandBytes_of_ne_ldi (h ▸ opcodeHlt_ne_opcodeLdi), h, decode_opcodeHlt]

theorem decodeExecute_unknown {s : State} (h : isUnknownOpcode s.ir = true) :
    decodeExecute s = exec (.unknown s.ir) s := by
  rw [decodeExecute, State.operandBytes_of_ne_ldi ((isUnknownOpcode_iff _).1 h).1, decode_unknown h]

/-- Everything an execute micro-step can do: the arm its opcode selects, each with the state it ends in. -/
theorem decodeExecute_cases (s : State) :
    (s.ir = opcodeLdi ∧ decodeExecute s = .next ((((s.latchRead s.pc (s.memRead s.pc)).setA
        (s.memRead s.pc)).advancePc.setLastOp (.load s.pc (s.memRead s.pc))).endExecute)) ∨
    (s.ir = opcodeOut ∧ decodeExecute s = .next (((s.appendOutput s.a).setLastOp (.out s.a)).endExecute)) ∨
    (s.ir = opcodeHlt ∧ decodeExecute s = .next (s.halt .halt).endExecute) ∨
    (isUnknownOpcode s.ir = true ∧ decodeExecute s = .next (s.halt (.unknown s.ir)).endExecute) := by
  rcases opcode_cases s.ir with h | h | h | h
  · exact .inl ⟨h, decodeExecute_ldi h⟩
  · exact .inr (.inl ⟨h, decodeExecute_out h⟩)
  · exact .inr (.inr (.inl ⟨h, decodeExecute_hlt h⟩))
  · exact .inr (.inr (.inr ⟨h, decodeExecute_unknown h⟩))

/-! ### microStep -/

theorem microStep_of_halted {s : State} (h : s.running = false) : microStep s = none := by
  simp [microStep, h]

theorem microStep_of_fetch {s : State} (h : s.running = true) (hp : s.phase = .fetch) :
    microStep s = some (.next (fetch s)) := by
  simp [microStep, h, hp]

theorem microStep_of_execute {s : State} (h : s.running = true) (hp : s.phase = .execute) :
    microStep s = some (decodeExecute s) := by
  simp [microStep, h, hp]

/-- Everything a micro-step can do. -/
theorem microStep_cases {s t : State} (h : microStep s = some (.next t)) :
    s.running = true ∧ ((s.phase = .fetch ∧ t = fetch s) ∨ (s.phase = .execute ∧ decodeExecute s = .next t)) := by
  cases hr : s.running with
  | false => simp [microStep_of_halted hr] at h
  | true =>
    cases hp : s.phase with
    | fetch => rw [microStep_of_fetch hr hp] at h; simp_all
    | execute => rw [microStep_of_execute hr hp] at h; simp_all

/-! ### step -/

theorem step_of_halted {s : State} (h : s.running = false) : step s = .next s := by
  simp [step, instructionStep, h]

theorem step_of_fetch {s : State} (h : s.running = true) (hp : s.phase = .fetch) :
    step s = decodeExecute (fetch s) := by
  simp [step, instructionStep, h, hp]

theorem step_of_execute {s : State} (h : s.running = true) (hp : s.phase = .execute) :
    step s = decodeExecute s := by
  simp [step, instructionStep, h, hp]

/-- Everything a step can do: nothing while Halted, the rest of an instruction, or a whole one. -/
theorem step_cases {s t : State} (h : step s = .next t) :
    (s.running = false ∧ t = s) ∨
    (s.running = true ∧ s.phase = .execute ∧ decodeExecute s = .next t) ∨
    (s.running = true ∧ s.phase = .fetch ∧ decodeExecute (fetch s) = .next t) := by
  cases hr : s.running with
  | false => rw [step_of_halted hr] at h; simp_all
  | true =>
    cases hp : s.phase with
    | fetch => rw [step_of_fetch hr hp] at h; simp_all
    | execute => rw [step_of_execute hr hp] at h; simp_all

end Sys2Proof.Machine
end

