-- ==== Sys2Proof/Laws/Memory.lean ====
section
/-! SUPPORT. Every memory operation keeps the canonical form. -/

namespace Sys2Proof.Machine

/-- Every address of `m` is at least `n`. -/
abbrev Memory.From (n : Nat) (m : Memory) : Prop := ∀ c ∈ m, n ≤ c.1

theorem Memory.wf_nil : Memory.wf [] := by simp [Memory.wf]

theorem Memory.wf_tail {c : Host.Cell} {m : Memory} (h : Memory.wf (c :: m)) : Memory.wf m := by
  simp only [Memory.wf, List.map_cons, List.pairwise_cons, List.mem_cons, forall_eq_or_imp] at h ⊢
  exact ⟨h.1.2, h.2.2⟩

theorem Memory.from_tail {c : Host.Cell} {m : Memory} (h : Memory.wf (c :: m)) : Memory.From (c.1 + 1) m := by
  intro d hd
  simp only [Memory.wf, List.map_cons, List.pairwise_cons] at h
  exact h.1.1 d.1 (List.mem_map_of_mem hd)

/-- A cell in front of cells at higher addresses keeps the form, listed or not. -/
theorem Memory.wf_cons {addr : Nat} {v : Byte} {m : Memory} (ha : addr < Config.memSize) (h : Memory.wf m)
    (hm : Memory.From (addr + 1) m) : (Memory.cons addr v m).wf := by
  unfold Memory.cons
  split
  · exact h
  · rename_i hv
    simp only [Memory.wf, List.map_cons, List.pairwise_cons, List.mem_map, List.mem_cons, forall_eq_or_imp,
      forall_exists_index, and_imp, forall_apply_eq_imp_iff₂] at h ⊢
    exact ⟨⟨fun d hd => hm d hd, h.1⟩, ⟨ha, hv⟩, h.2⟩

theorem Memory.from_cons {n addr : Nat} {v : Byte} {m : Memory} (ha : n ≤ addr) (hm : Memory.From n m) :
    Memory.From n (Memory.cons addr v m) := by
  unfold Memory.cons
  split
  · exact hm
  · exact List.forall_mem_cons.2 ⟨ha, hm⟩

theorem Memory.from_writeAt {n addr : Nat} {v : Byte} {m : Memory} (ha : n ≤ addr) (hm : Memory.From n m) :
    Memory.From n (m.writeAt addr v) := by
  induction m with
  | nil => exact Memory.from_cons ha hm
  | cons c rest ih =>
    have hc := List.forall_mem_cons.1 hm
    unfold Memory.writeAt
    split
    · exact Memory.from_cons ha hm
    · split
      · exact Memory.from_cons ha hc.2
      · exact List.forall_mem_cons.2 ⟨hc.1, ih hc.2⟩

/-- Setting one cell keeps the canonical form. -/
theorem Memory.wf_writeAt {addr : Nat} {v : Byte} {m : Memory} (ha : addr < Config.memSize) (h : m.wf) :
    (m.writeAt addr v).wf := by
  induction m with
  | nil => exact Memory.wf_cons ha h (by simp [Memory.From])
  | cons c rest ih =>
    have hrest := Memory.wf_tail h
    have hfrom := Memory.from_tail h
    unfold Memory.writeAt
    split
    · rename_i hlt
      refine Memory.wf_cons ha h fun d hd => ?_
      rcases List.mem_cons.1 hd with rfl | hd
      · exact hlt
      · have := hfrom d hd; omega
    · split
      · rename_i heq
        exact Memory.wf_cons ha hrest (heq ▸ hfrom)
      · have hc : c.1 + 1 ≤ addr := by omega
        have hw := Memory.from_writeAt (v := v) hc hfrom
        replace ih := ih hrest
        simp only [Memory.wf, List.map_cons, List.pairwise_cons, List.mem_map, List.mem_cons, forall_eq_or_imp,
          forall_exists_index, and_imp, forall_apply_eq_imp_iff₂] at h ih ⊢
        exact ⟨⟨fun d hd => hw d hd, ih.1⟩, h.2.1, ih.2⟩

theorem Memory.wf_write {m : Memory} (h : m.wf) (addr v : Byte) : (m.write addr v).wf :=
  Memory.wf_writeAt (by have := addr.isLt; simp only [Config.memSize]; omega) h

theorem Memory.imageFrom_from (image : Fin 256 → Byte) (n : Nat) (hn : n ≤ 256) :
    Memory.From (256 - n) (Memory.imageFrom image n) := by
  induction n with
  | zero => simp [Memory.imageFrom, Memory.From]
  | succ n ih =>
    have hv : (Fin.ofNat 256 (255 - n)).val = 255 - n := by simp only [Fin.val_ofNat]; omega
    unfold Memory.imageFrom
    refine Memory.from_cons (by omega) fun d hd => ?_
    have := ih (by omega) d hd
    omega

/-- The memory of an image is in canonical form. -/
theorem Memory.wf_ofImage (image : Fin 256 → Byte) : (Memory.ofImage image).wf := by
  suffices h : ∀ n, n ≤ 256 → (Memory.imageFrom image n).wf from h 256 (Nat.le_refl _)
  intro n
  induction n with
  | zero => exact fun _ => Memory.wf_nil
  | succ n ih =>
    intro hn
    have hv : (Fin.ofNat 256 (255 - n)).val = 255 - n := by simp only [Fin.val_ofNat]; omega
    unfold Memory.imageFrom
    refine Memory.wf_cons (by simp only [Config.memSize]; omega) (ih (by omega)) fun d hd => ?_
    have := Memory.imageFrom_from image n (by omega) d hd
    omega

/-- Placing an instruction keeps the canonical form. -/
theorem State.placeAtPc_wf {s : State} (h : s.mem.wf) (first second : Byte) : (s.placeAtPc first second).mem.wf :=
  Memory.wf_write (Memory.wf_write h _ _) _ _

/-- The memory after reset is in canonical form. -/
theorem State.reset_mem_wf : State.reset.mem.wf := Memory.wf_nil

end Sys2Proof.Machine
end

