-- ==== Sys2Proof/Laws/PerInstr.lean ====
section
/-! SUPPORT. The families of statements made for every instruction, one lemma for each constructor. -/

namespace Sys2Proof.Laws

/-- The encoding starts with the opcode and has the length the opcode gives (R49, R52). -/
def EncodedLength.Statement (i : Instr) : Prop :=
  i.wellFormed = true → (encode i).head? = some i.opcode ∧ (encode i).length = instrLength i.opcode

theorem EncodedLength.ldi (imm8 : Byte) : EncodedLength.Statement (.ldi imm8) :=
  fun _ => ⟨rfl, rfl⟩

theorem EncodedLength.out : EncodedLength.Statement .out :=
  fun _ => ⟨rfl, rfl⟩

theorem EncodedLength.hlt : EncodedLength.Statement .hlt :=
  fun _ => ⟨rfl, rfl⟩

theorem EncodedLength.unknown (op : Byte) : EncodedLength.Statement (.unknown op) := by
  intro h
  have hne : op ≠ opcodeLdi := by rintro rfl; exact absurd h (by decide)
  exact ⟨rfl, by simp [encode, Instr.opcode, instrLength, hne]⟩

end Sys2Proof.Laws
end

