-- ==== Sys2Proof/Tests/Slice0.lean ====
section
/-! SUPPORT. Tests with results from the spec's own vectors (spec/95_test_vectors.md), the smoke test of WellFormed,
and for each statement with hypotheses a witness that meets them. -/

open Sys2Proof Sys2Proof.Machine

namespace Sys2Proof.Tests

/-! ### Small states -/

/-- A machine about to fetch `op` at `p`, with `operand` in the next cell and `a` in `A`. -/
def before (p op operand a : Byte) : State :=
  { State.reset with pc := p, a := a, mem := Memory.write (Memory.write [] p op) (inc8 p) operand }

/-- The same machine after the fetch. -/
def between (p op operand a : Byte) : State := fetch (before p op operand a)

/-- The machine after `HLT` at `p`. -/
def halted (p a : Byte) : State := (between p 0xFF 0x00 a).halt .halt |>.endExecute

/-- The state of an outcome, for tests of one field. -/
def after (o : Host.Outcome State Fault Refusal) : Option State :=
  match o with
  | .next s => some s
  | _ => none

/-- PC MAR MBR IR A, running, last_op, output: a state as spec/95_test_vectors.md writes it. -/
def shown (o : Option State) : Option (List Byte × Bool × Label × List Byte) :=
  o.map fun s => ([s.pc, s.mar, s.mbr, s.ir, s.a], s.running, s.lastOp, s.output)

/-! ### Well-formedness: each check refuses its ill-formed terms -/

theorem test_wellFormed_refuses_ldi_as_unknown : (Instr.unknown 0x10).wellFormed = false := by decide

theorem test_wellFormed_refuses_out_as_unknown : (Instr.unknown 0x20).wellFormed = false := by decide

theorem test_wellFormed_refuses_hlt_as_unknown : (Instr.unknown 0xFF).wellFormed = false := by decide

theorem test_wellFormed_accepts : (Instr.unknown 0x00).wellFormed = true ∧ (Instr.ldi 0xFF).wellFormed = true := by
  decide

/-! ### Decoding: words written out from the encodings of R50, R51 and R53 -/

theorem test_decode_ldi : decode [0b00010000, 0b01000001] = .ok (.ldi 0x41, []) := by decide

theorem test_decode_ldi_immediate_is_data : decode [0b00010000, 0b11111111, 0b00100000] = .ok (.ldi 0xFF, [0x20]) := by
  decide

theorem test_decode_out : decode [0b00100000] = .ok (.out, []) := by decide

theorem test_decode_hlt : decode [0b11111111] = .ok (.hlt, []) := by decide

theorem test_decode_unknown_below_ldi : decode [0b00001111] = .ok (.unknown 0x0F, []) := by decide

theorem test_decode_unknown_below_hlt : decode [0b11111110] = .ok (.unknown 0xFE, []) := by decide

theorem test_decode_rejects_truncated : decode [0b00010000] = .error .noOperandByte := by decide

theorem test_table_word_ldi : decodeTableWord 16 0x4110 = some (.ldi 0x41) := by decide

theorem test_table_word_ldi_opcode_byte : decodeTableWord 8 0x10 = some (.ldi 0x00) := by decide

theorem test_table_word_unknown : decodeTableWord 8 0x00 = some (.unknown 0x00) := by decide

/-! ### One step: vectors F2, L4, L5, O4, O5, H1, H2, W3, and a Halted engine (H3) -/

theorem test_fetch_wraps : shown (some (between 0xFF 0x20 0x00 0x00)) =
    some ([0x00, 0xFF, 0x20, 0x20, 0x00], true, .fetch 0xFF 0x20, []) := by decide

theorem test_ldi_operand_at_top : shown (after (step (before 0xFE 0x10 0x33 0x00))) =
    some ([0x00, 0xFF, 0x33, 0x10, 0x33], true, .load 0xFF 0x33, []) := by decide

theorem test_ldi_operand_wraps : shown (after (step (before 0xFF 0x10 0x5A 0x00))) =
    some ([0x01, 0x00, 0x5A, 0x10, 0x5A], true, .load 0x00 0x5A, []) := by decide

theorem test_out_does_not_clamp : shown (after (step (before 0xFF 0x20 0x00 0x80))) =
    some ([0x00, 0xFF, 0x20, 0x20, 0x80], true, .out 0x80, [0x80]) := by decide

theorem test_out_keeps_a : shown (after (step { before 0x05 0x20 0x00 0x41 with output := [0x41] })) =
    some ([0x06, 0x05, 0x20, 0x20, 0x41], true, .out 0x41, [0x41, 0x41]) := by decide

theorem test_hlt : shown (after (step (before 0x03 0xFF 0x00 0x41))) =
    some ([0x04, 0x03, 0xFF, 0xFF, 0x41], false, .halt, []) := by decide

theorem test_hlt_records : (after (step (before 0xFF 0xFF 0x00 0x12))).map State.points =
    some [.postFetch, .postExecute, .final] := by decide

theorem test_unknown : shown (after (step (before 0x20 0x11 0x00 0x33))) =
    some ([0x21, 0x20, 0x11, 0x11, 0x33], false, .unknown 0x11, []) := by decide

theorem test_unknown_complete : (after (step (before 0x20 0xFE 0x00 0x33))).map State.runComplete = some true := by decide

theorem test_halted_ignores_advance : microStep (halted 0x03 0x41) = none ∧
    after (advance (halted 0x03 0x41)) = some (halted 0x03 0x41) := by decide

/-- RS2: a reset between the two micro-steps. -/
theorem test_reset_mid_instruction : shown (some (applyReset (between 0x00 0x10 0x00 0x00))) =
    some ([0x00, 0x00, 0x00, 0x00, 0x00], true, .none, []) ∧
    (applyReset (between 0x00 0x10 0x00 0x00)).phase = .fetch := by decide

theorem test_placed_ldi_runs : shown (after (step (State.reset.withFetchWord 16 0x4110))) =
    some ([0x02, 0x01, 0x41, 0x10, 0x41], true, .load 0x01 0x41, []) := by decide

/-- The record layout of R26 for the POST_EXECUTE record of `OUT`. -/
theorem test_hardware_record : (((after (step (before 0x02 0x20 0x00 0x41))).map (·.trace.getLast?)).join).map TraceRecord.toHw =
    some { point := 1, pc := 0x03, mar := 0x02, mbr := 0x20, ir := 0x20, a := 0x41, running := true, opKind := 3,
           opF1 := 0x41, opF2 := 0x00, outLen := 1 } := by decide

/-! ### Memory and assembly -/

theorem test_memory_keeps_order : Memory.write (Memory.write (Memory.write [] 0x05 0x01) 0x02 0x07) 0x05 0x00 = [(2, 0x07)] := by
  decide

/-- The lines of R57: a comment, a decimal and a hexadecimal number, and the directives. -/
theorem test_source_statements :
    asmSource ['L', 'D', 'I', ' ', 'A', ',', ' ', '0', 'x', '4', '8', ' ', ';', 'H', '\n', 'O', 'U', 'T', ' ', 'A', '\n', '\n',
      'H', 'L', 'T', '\n', '.', 'o', 'r', 'g', ' ', '2', '5', '5', '\n', '.', 'b', 'y', 't', 'e', ' ', '1', '6'] [] =
    .ok [.ldi 0x48, .out, .hlt, .org 255, .byte 16] := by decide

theorem test_source_rejects_lower_case : asmLine ['h', 'l', 't'] = .error .notAStatement := by decide

theorem test_assembly_range : asmStatement { loc := 0, cells := [] } (.ldi 256) = .error .numberOutOfRange := by decide

/-! ### Witnesses: for each statement with hypotheses, a state and operands that meet them -/

/-- An image of `HLT` in every cell, whose run Halts. -/
def hltImage : Fin 256 → Byte := fun _ => 0xFF

theorem reachable_between : Reachable hltImage (fetch (construct hltImage)) :=
  .microStep .construct rfl

theorem reachable_halted : Reachable hltImage ((fetch (construct hltImage)).halt .halt).endExecute :=
  .microStep reachable_between rfl

/-- A state between the micro-steps of `LDI` that meets the invariant. -/
theorem inv_between : Inv (between 0x00 0x10 0x41 0x07) where
  mem_wf := by decide
  halted_at_boundary := by decide
  trace_shape := ⟨0, by decide, by decide⟩
  last_record_current := by rintro r ⟨⟩; rfl
  last_read := by decide
  just_fetched := by decide
  halt_cause := by decide
  output_traced := by decide
  outputs_append_only := by decide

/-- The two hexadecimal digits of a byte. -/
def hexDigits (b : Byte) : List Char := [Nat.digitChar (b.toNat / 16), Nat.digitChar (b.toNat % 16)]

/-- An admissible presentation: a byte is shown as its two hexadecimal digits. -/
def plainText : Presentation where
  labelText
    | .none => ""
    | .fetch addr op => String.ofList (hexDigits addr ++ hexDigits op)
    | .load _ _ => "LOAD"
    | .out _ => "OUT"
    | .halt => "HLT"
    | .unknown op => String.ofList ("UNKNOWN opcode, halted: ".toList ++ hexDigits op)
  charMap b := Char.ofNat b.toNat

theorem digitChar_inj : ∀ m n : Fin 16, Nat.digitChar m = Nat.digitChar n → m = n := by decide

theorem hexDigits_injective : Function.Injective hexDigits := by
  intro b c h
  simp only [hexDigits, List.cons.injEq, and_true] at h
  have hb := b.isLt
  have hc := c.isLt
  have h1 := congrArg Fin.val (digitChar_inj ⟨b.toNat / 16, by omega⟩ ⟨c.toNat / 16, by omega⟩ h.1)
  have h2 := congrArg Fin.val (digitChar_inj ⟨b.toNat % 16, by omega⟩ ⟨c.toNat % 16, by omega⟩ h.2)
  exact BitVec.eq_of_toNat_eq (by simp only at h1 h2; omega)

theorem plainText_admissible : plainText.Admissible where
  none_is_empty := rfl
  halt_is_HLT := rfl
  bytes_shown := by
    refine ⟨fun b => String.ofList (hexDigits b), fun b c h => hexDigits_injective (String.ofList_injective h),
      fun b h => ?_, fun addr op => ⟨?_, ?_⟩, fun op => ?_⟩
    · simpa [hexDigits] using congrArg String.toList h
    · exact ⟨hexDigits addr, [], by simp [plainText]⟩
    · exact ⟨[], hexDigits op, by simp [plainText]⟩
    · exact ⟨"UNKNOWN opcode, halted: ".toList, [], by simp [plainText]⟩
  fetch_texts_differ addr op addr' op' h := by
    have := List.append_inj (String.ofList_injective h) rfl
    exact .inl ⟨hexDigits_injective this.1, hexDigits_injective this.2⟩
  unknown_texts_differ op op' h :=
    hexDigits_injective (List.append_cancel_left (String.ofList_injective h))
  unknown_is_named op := ⟨[], " opcode, halted: ".toList ++ hexDigits op, by simp [plainText]⟩
  ascii_char _ _ := rfl
  out_of_ascii_char := by decide

theorem witness_DecodeInvertsEncode : (Instr.unknown 0xFE).wellFormed = true := by decide

theorem witness_DecodedInstructionsReencode : decode [0x10, 0xFF, 0x20] = .ok (.ldi 0xFF, [0x20]) := by decide

theorem witness_OpcodeMapIsTheTable : ((0x0F : Byte) ≠ 0x10 ∧ (0x0F : Byte) ≠ 0x20 ∧ (0x0F : Byte) ≠ 0xFF) ∧
    decode ((between 0xFF 0x10 0x5A 0x00).ir :: (between 0xFF 0x10 0x5A 0x00).operandBytes) = .ok (.ldi 0x5A, []) := by
  decide

theorem witness_LengthComesFromOpcodeByte : decode [0x10, 0x01, 0x02] = .ok (.ldi 0x01, [0x02]) ∧
    decode [0x11, 0x01] = .ok (.unknown 0x11, [0x01]) := by decide

theorem witness_TableWordsDecode : (0xFE : Byte) ≠ 0x10 ∧ (0xFE : Byte) ≠ 0x20 ∧ (0xFE : Byte) ≠ 0xFF := by decide

theorem witness_ReadAfterLoaderWrite : Memory.wf [(0, 0x10), (255, 0xFF)] := by decide

theorem witness_CanonicalMemories : Memory.wf (Memory.write (Memory.write [] 0xFF 0x01) 0x00 0x02) ∧
    Memory.wf [(0, 0x02), (255, 0x01)] ∧
    ∀ addr : Byte, (Memory.write (Memory.write [] 0xFF 0x01) 0x00 0x02).read addr = Memory.read [(0, 0x02), (255, 0x01)] addr :=
  ⟨by decide, by decide, fun _ => rfl⟩

theorem witness_MemoryStaysTheImage :
    microStep (before 0xFF 0x10 0x5A 0x00) = some (.next (between 0xFF 0x10 0x5A 0x00)) ∧
    Reachable hltImage (fetch (construct hltImage)) := ⟨rfl, reachable_between⟩

theorem witness_ResetReinitialises : (before 0x07 0x10 0x41 0x00).mem = (between 0x07 0x10 0x41 0x00).mem := rfl

/-- Running with phase FETCH, at the highest address and with each opcode: the fetch and step statements. -/
theorem witness_fetch : ∀ op ∈ [(0x10 : Byte), 0x20, 0xFF, 0x00], (before 0xFF op 0x5A 0x00).running = true ∧
    (before 0xFF op 0x5A 0x00).phase = .fetch ∧
    (before 0xFF op 0x5A 0x00).memRead (before 0xFF op 0x5A 0x00).pc = op := by decide

/-- Running with phase EXECUTE, at the highest address and with each opcode: the execute statements. -/
theorem witness_execute : ∀ op ∈ [(0x10 : Byte), 0x20, 0xFF, 0x00], (between 0xFF op 0x5A 0x00).running = true ∧
    (between 0xFF op 0x5A 0x00).phase = .execute ∧ (between 0xFF op 0x5A 0x00).ir = op := by decide

theorem witness_FetchMicroStep : (before 0xFF 0xFF 0x00 0x00).running = true ∧ (before 0xFF 0xFF 0x00 0x00).phase = .fetch := by
  decide

theorem witness_PcAdvancesModulo256 : (between 0xFE 0x10 0x33 0x00).running = true ∧
    (between 0xFE 0x10 0x33 0x00).phase = .execute ∧ (between 0xFE 0x10 0x33 0x00).ir = 0x10 ∧
    (between 0xFE 0x10 0x33 0x00).pc = 0xFF := by decide

theorem witness_ExecLdiCompletes : (between 0x40 0x10 0x00 0x77).running = true := by decide

theorem witness_ExecOutCompletes : (between 0x02 0x20 0x00 0x41).running = true := by decide

theorem witness_LdiLoadsTheNextByte : (before 0xFF 0x10 0x5A 0x00).running = true ∧
    (before 0xFF 0x10 0x5A 0x00).phase = .fetch ∧
    (before 0xFF 0x10 0x5A 0x00).memRead (before 0xFF 0x10 0x5A 0x00).pc = 0x10 := witness_fetch 0x10 (by decide)

theorem witness_LdiAdvancesPcByTwo : (between 0xFF 0x10 0x5A 0x00).running = true ∧
    (between 0xFF 0x10 0x5A 0x00).phase = .execute ∧ (between 0xFF 0x10 0x5A 0x00).ir = 0x10 :=
  witness_execute 0x10 (by decide)

theorem witness_OutEmitsTheAccumulator : (between 0xFF 0x20 0x5A 0x00).running = true ∧
    (between 0xFF 0x20 0x5A 0x00).phase = .execute ∧ (between 0xFF 0x20 0x5A 0x00).ir = 0x20 :=
  witness_execute 0x20 (by decide)

theorem witness_HltHaltsUntilReset : (between 0xFF 0xFF 0x5A 0x00).running = true ∧
    (between 0xFF 0xFF 0x5A 0x00).phase = .execute ∧ (between 0xFF 0xFF 0x5A 0x00).ir = 0xFF :=
  witness_execute 0xFF (by decide)

theorem witness_UnknownOpcodeHalts : ((between 0xFF 0x00 0x5A 0x00).running = true ∧
    (between 0xFF 0x00 0x5A 0x00).phase = .execute ∧ (between 0xFF 0x00 0x5A 0x00).ir = 0x00) ∧
    Reachable hltImage (fetch (construct hltImage)) ∧ (fetch (construct hltImage)).phase = .execute :=
  ⟨witness_execute 0x00 (by decide), reachable_between, rfl⟩

theorem witness_ExecuteDispatchesOnIr : ∀ op ∈ [(0x10 : Byte), 0x20, 0xFF, 0x00],
    (between 0xFF op 0x5A 0x00).running = true ∧ (between 0xFF op 0x5A 0x00).phase = .execute ∧
    (between 0xFF op 0x5A 0x00).ir = op := witness_execute

theorem witness_ExecFrame : ∀ i ∈ [Instr.ldi 0xFF, .out, .hlt, .unknown 0x00],
    (after (exec i (between 0xFF i.opcode 0xFF 0x41))).isSome = true := by decide

/-- Two states that differ where the micro-step does not read. -/
theorem witness_WrittenValuesDependOnlyOnReads :
    microStep (before 0xFF 0x10 0x5A 0x00) = some (.next (between 0xFF 0x10 0x5A 0x00)) ∧
    microStep (before 0xFF 0x10 0x5A 0x77) = some (.next (between 0xFF 0x10 0x5A 0x77)) ∧
    (microStep (between 0xFF 0x10 0x5A 0x00)).isSome = true ∧
    (between 0xFF 0x10 0x5A 0x00).pc = (between 0xFF 0x10 0x5A 0x77).pc ∧
    (between 0xFF 0x10 0x5A 0x00).memRead 0x00 = (between 0xFF 0x10 0x5A 0x77).memRead 0x00 := ⟨rfl, rfl, rfl, rfl, rfl⟩

theorem witness_AccumulatorWrittenByLdiReadByOut : ¬((before 0x00 0x20 0x00 0x00).phase = .execute ∧ (before 0x00 0x20 0x00 0x00).ir = 0x20) ∧
    microStep (before 0x00 0x20 0x00 0x00) = some (.next (between 0x00 0x20 0x00 0x00)) := ⟨by decide, rfl⟩

theorem witness_PcOnlyAdvances : (microStep (between 0xFE 0x10 0x33 0x00)).isSome = true ∧
    (between 0xFE 0x10 0x33 0x00).ir = 0x10 ∧ (between 0xFE 0x10 0x33 0x00).pc = 0xFF := by decide

theorem witness_MarAndMbrLatchEveryRead :
    microStep (before 0xFF 0x10 0x5A 0x00) = some (.next (between 0xFF 0x10 0x5A 0x00)) := rfl

theorem witness_IrWrittenOnlyByFetch : Reachable hltImage ((fetch (construct hltImage)).halt .halt).endExecute ∧
    ((fetch (construct hltImage)).halt .halt).endExecute.running = false := ⟨reachable_halted, rfl⟩

theorem witness_EveryMicroStepLabels : microStep (between 0x03 0xFF 0x00 0x41) = some (.next (halted 0x03 0x41)) := rfl

theorem witness_StateMachineTransitions : (halted 0x03 0x41).running = false ∧
    Reachable hltImage ((fetch (construct hltImage)).halt .halt).endExecute := ⟨rfl, reachable_halted⟩

theorem witness_RunningClearedOnlyByHalts : (halted 0x03 0x41).running = false ∧
    advances 0 (halted 0x03 0x41) = .next (halted 0x03 0x41) ∧
    microStep (between 0x03 0xFF 0x00 0x41) = some (.next (halted 0x03 0x41)) := ⟨rfl, rfl, rfl⟩

theorem witness_HaltedStateIsFrozen : (halted 0xFF 0x12).running = false ∧ (before 0xFF 0x20 0x00 0x00).running = true := by
  decide

theorem witness_StepIsFetchThenExecute : (before 0xFF 0x10 0x5A 0x00).running = true ∧
    (before 0xFF 0x10 0x5A 0x00).phase = .fetch := by decide

theorem witness_StepRunsTheDecodedInstruction :
    decode [(before 0xFF 0x10 0x5A 0x00).memRead 0xFF, (before 0xFF 0x10 0x5A 0x00).memRead 0x00] = .ok (.ldi 0x5A, []) ∧
    decode [(between 0xFF 0x20 0x5A 0x00).ir, (between 0xFF 0x20 0x5A 0x00).memRead 0x00] = .ok (.out, [0x5A]) := by decide

theorem witness_UnknownOpcodeIsTheOnlyException :
    exec (.unknown 0x11) (between 0x20 0x11 0x00 0x33) = .next ((between 0x20 0x11 0x00 0x33).halt (.unknown 0x11)).endExecute ∧
    (((between 0x20 0x11 0x00 0x33).halt (.unknown 0x11)).endExecute).lastOp = .unknown 0x11 := ⟨rfl, rfl⟩

theorem witness_MicroStepsRecordTheirRenderPoints :
    microStep (between 0x03 0xFF 0x00 0x41) = some (.next (halted 0x03 0x41)) ∧ (halted 0x03 0x41).running = false :=
  ⟨rfl, rfl⟩

theorem witness_TraceAndOutputAreNeverReadBack :
    microStep (before 0xFF 0x10 0x5A 0x00) = some (.next (between 0xFF 0x10 0x5A 0x00)) := rfl

theorem witness_RunLeavesTwoRecordsPerInstruction : State.reset.running = true ∧ State.reset.phase = .fetch := by decide

/-- `OUT` in the `n` cells from `lo` up. -/
def outCells : Nat → Nat → Memory
  | _, 0 => []
  | lo, n + 1 => (lo, 0x20) :: outCells (lo + 1) n

theorem readAt_outCells (n : Nat) : ∀ lo addr, lo ≤ addr → addr < lo + n → (outCells lo n).readAt addr = 0x20 := by
  induction n with
  | zero => intro lo addr h1 h2; omega
  | succ n ih =>
    intro lo addr h1 h2
    by_cases h : lo = addr
    · simp [outCells, Memory.readAt, h]
    · simpa [outCells, Memory.readAt, h] using ih (lo + 1) addr (by omega) (by omega)

/-- A memory of `OUT` in every cell: an image whose run never ends (R72). -/
theorem witness_RunGoesOnWhileLoadsAndOutputs :
    ∃ s : State, s.running = true ∧ s.phase = .fetch ∧ ∀ addr : Byte, s.memRead addr = 0x10 ∨ s.memRead addr = 0x20 :=
  ⟨{ State.reset with mem := outCells 0 256 }, rfl, rfl, fun addr =>
    .inr (readAt_outCells 256 0 addr.toNat (Nat.zero_le _) (by have := addr.isLt; omega))⟩

theorem witness_ResetMeetsInvariant : (between 0x00 0x10 0x41 0x07).mem.wf := by decide

theorem witness_MicroStepKeepsInvariant : Inv (between 0x00 0x10 0x41 0x07) ∧
    (microStep (between 0x00 0x10 0x41 0x07)).isSome = true := ⟨inv_between, rfl⟩

theorem witness_StepKeepsInvariant : Inv (between 0x00 0x10 0x41 0x07) ∧
    (after (step (between 0x00 0x10 0x41 0x07))).isSome = true := ⟨inv_between, rfl⟩

theorem witness_ReachableStates : Reachable hltImage (fetch (construct hltImage)) ∧
    (fetch (construct hltImage)).running = true ∧
    (after (advances 1 (fetch (construct hltImage)))).map (·.running) = some false := ⟨reachable_between, rfl, rfl⟩

theorem witness_PlacedInstructionIsTheOneRun : (before 0xFF 0x10 0x5A 0x00).mem.wf ∧
    decodeTableWord 16 0xFF10 = some (.ldi 0xFF) := by decide

theorem witness_HardwareRecordsLoseNothing : Inv (between 0x00 0x10 0x41 0x07) ∧
    (between 0x00 0x10 0x41 0x07).trace.length = 1 := ⟨inv_between, rfl⟩

theorem witness_PresentationsShowTheSpecTexts : plainText.Admissible ∧ (between 0x02 0x20 0x00 0x7F).a.toNat < 0x80 ∧
    0x80 ≤ (between 0x02 0x20 0x00 0x80).a.toNat := ⟨plainText_admissible, by decide, by decide⟩

theorem witness_AssembledProgramsFillTheImage : ([Instr.ldi 0xFF, .out, .hlt, .unknown 0x00].flatMap encode).length ≤ 256 := by
  decide

end Sys2Proof.Tests
end

section
/-! PROOFS. The family of spec/10_state.md: what a micro-step does to each register (R12, R15, R16), and the invariants
of R30 along any number of advances. -/

namespace Sys2Proof.Machine

/-! ### The micro-step relation, by cases -/

/-- The micro-step from a Running state, one constructor for each row of the state machine (R60, R62): the condition on
`phase` and `IR`, and the state it ends in. `microStep_iff` ties it to `microStep`. -/
inductive MicroStepTo (s : State) : State → Prop
  | fetch (hp : s.phase = .fetch) : MicroStepTo s (fetch s)
  | ldi (hp : s.phase = .execute) (hir : s.ir = opcodeLdi) :
      MicroStepTo s (((s.latchRead s.pc (s.memRead s.pc)).setA (s.memRead s.pc)).advancePc.setLastOp
        (.load s.pc (s.memRead s.pc))).endExecute
  | out (hp : s.phase = .execute) (hir : s.ir = opcodeOut) :
      MicroStepTo s ((s.appendOutput s.a).setLastOp (.out s.a)).endExecute
  | hlt (hp : s.phase = .execute) (hir : s.ir = opcodeHlt) : MicroStepTo s (s.halt .halt).endExecute
  | unknown (hp : s.phase = .execute) (hir : isUnknownOpcode s.ir = true) :
      MicroStepTo s (s.halt (.unknown s.ir)).endExecute

/-- A micro-step leads to `t` exactly from a Running state, by the row that `phase` and `IR` select. -/
theorem microStep_iff {s t : State} : microStep s = some (.next t) ↔ s.running = true ∧ MicroStepTo s t := by
  constructor
  · intro h
    obtain ⟨hr, ⟨hp, rfl⟩ | ⟨hp, hd⟩⟩ := microStep_cases h
    · exact ⟨hr, .fetch hp⟩
    · refine ⟨hr, ?_⟩
      obtain ⟨hir, he⟩ | ⟨hir, he⟩ | ⟨hir, he⟩ | ⟨hir, he⟩ := decodeExecute_cases s <;>
        obtain rfl := Host.Outcome.next.inj (hd.symm.trans he)
      · exact .ldi hp hir
      · exact .out hp hir
      · exact .hlt hp hir
      · exact .unknown hp hir
  · rintro ⟨hr, ht⟩
    cases ht with
    | fetch hp => exact microStep_of_fetch hr hp
    | ldi hp hir => rw [microStep_of_execute hr hp, decodeExecute_ldi hir]; rfl
    | out hp hir => rw [microStep_of_execute hr hp, decodeExecute_out hir]; rfl
    | hlt hp hir => rw [microStep_of_execute hr hp, decodeExecute_hlt hir]; rfl
    | unknown hp hir => rw [microStep_of_execute hr hp, decodeExecute_unknown hir]; rfl

/-- Every Running state has a micro-step. -/
theorem exists_microStep {s : State} (hr : s.running = true) : ∃ t, microStep s = some (.next t) := by
  cases hp : s.phase with
  | fetch => exact ⟨_, microStep_of_fetch hr hp⟩
  | execute =>
    obtain h | h | h | h := opcode_cases s.ir
    · exact ⟨_, microStep_iff.2 ⟨hr, .ldi hp h⟩⟩
    · exact ⟨_, microStep_iff.2 ⟨hr, .out hp h⟩⟩
    · exact ⟨_, microStep_iff.2 ⟨hr, .hlt hp h⟩⟩
    · exact ⟨_, microStep_iff.2 ⟨hr, .unknown hp h⟩⟩

/-- The execute micro-step runs an instruction whose opcode is the byte in `IR` (R62). -/
theorem decodeExecute_eq_exec (s : State) : ∃ i, decodeExecute s = exec i s ∧ i.opcode = s.ir := by
  obtain h | h | h | h := opcode_cases s.ir
  · exact ⟨_, decodeExecute_ldi h, h.symm⟩
  · exact ⟨_, decodeExecute_out h, h.symm⟩
  · exact ⟨_, decodeExecute_hlt h, h.symm⟩
  · exact ⟨_, decodeExecute_unknown h, rfl⟩

/-! ### What a micro-step leaves in each register, and in `running` -/

section
variable {s t : State} (h : microStep s = some (.next t))
include h

/-- Only the execute micro-step of `LDI` writes `A` (R16). -/
theorem microStep_a : t.a = if s.phase = .execute ∧ s.ir = opcodeLdi then s.memRead s.pc else s.a := by
  obtain ⟨-, ht⟩ := microStep_iff.1 h
  cases ht with
  | fetch hp => simp [hp]
  | ldi hp hir => simp [hp, hir]
  | out hp hir => simp [hp, hir, opcodeOut_ne_opcodeLdi]
  | hlt hp hir => simp [hp, hir, opcodeHlt_ne_opcodeLdi]
  | unknown hp hir => simp [((isUnknownOpcode_iff _).1 hir).1]

/-- Only fetch and the execute micro-step of `LDI` write `PC` (R12). -/
theorem microStep_pc : t.pc = if s.phase = .fetch ∨ s.ir = opcodeLdi then inc8 s.pc else s.pc := by
  obtain ⟨-, ht⟩ := microStep_iff.1 h
  cases ht with
  | fetch hp => simp [hp]
  | ldi hp hir => simp [hir]
  | out hp hir => simp [hp, hir, opcodeOut_ne_opcodeLdi]
  | hlt hp hir => simp [hp, hir, opcodeHlt_ne_opcodeLdi]
  | unknown hp hir => simp [hp, ((isUnknownOpcode_iff _).1 hir).1]

/-- Only fetch writes `IR` (R15). -/
theorem microStep_ir : t.ir = if s.phase = .fetch then s.memRead s.pc else s.ir := by
  obtain ⟨-, ht⟩ := microStep_iff.1 h
  cases ht with
  | fetch hp => simp [hp]
  | ldi hp | out hp | hlt hp | unknown hp => simp [hp]

/-- A micro-step halts exactly when it executes an opcode other than those of `LDI` and `OUT` (R18). -/
theorem microStep_halts_iff :
    t.running = false ↔ s.phase = .execute ∧ s.ir ≠ opcodeLdi ∧ s.ir ≠ opcodeOut := by
  obtain ⟨hr, ht⟩ := microStep_iff.1 h
  cases ht with
  | fetch hp => simp [hr, hp]
  | ldi hp hir => simp [hr, hir]
  | out hp hir => simp [hr, hir]
  | hlt hp hir => simp [hp, hir, opcodeHlt_ne_opcodeLdi, opcodeHlt_ne_opcodeOut]
  | unknown hp hir =>
    obtain ⟨hldi, hout, -⟩ := (isUnknownOpcode_iff _).1 hir
    simp [hp, hldi, hout]

/-- A micro-step that halts leaves the opcode that halted the engine in `IR` and its label in `last_op` (R15, R80). -/
theorem microStep_halt_cause (hh : t.running = false) :
    (t.ir = opcodeHlt ∧ t.lastOp = .halt) ∨ (isUnknownOpcode t.ir = true ∧ t.lastOp = .unknown t.ir) := by
  obtain ⟨hr, ht⟩ := microStep_iff.1 h
  cases ht with
  | fetch | ldi | out => simp [hr] at hh
  | hlt hp hir => simp [hir]
  | unknown hp hir => simp [hir]

end

/-- `endExecute` changes only `phase` and the trace (R62, R63), whatever `A` holds. -/
theorem State.endExecute_with (s : State) (x : Byte) (tr : List TraceRecord) :
    { s.endExecute with a := x, trace := tr } = { s with a := x, phase := .fetch, trace := tr } := by
  simp only [State.endExecute]; split <;> rfl

/-- Only the execute micro-step of `OUT` reads `A` (R16): any other leaves the same state whatever `A` held, but for `A`
itself and the records. -/
theorem microStep_with_a {s t : State} (x : Byte) (hout : ¬(s.phase = .execute ∧ s.ir = opcodeOut))
    (h : microStep s = some (.next t)) :
    ∃ t', microStep { s with a := x } = some (.next t') ∧ { t' with a := t.a, trace := t.trace } = t := by
  obtain ⟨hr, ht⟩ := microStep_iff.1 h
  cases ht with
  | fetch hp => exact ⟨_, microStep_iff.2 ⟨hr, .fetch hp⟩, rfl⟩
  | ldi hp hir =>
    exact ⟨_, microStep_iff.2 ⟨hr, .ldi hp hir⟩,
      (State.endExecute_with _ _ _).trans (State.endExecute_with _ _ _).symm⟩
  | out hp hir => exact absurd ⟨hp, hir⟩ hout
  | hlt hp hir => exact ⟨_, microStep_iff.2 ⟨hr, .hlt hp hir⟩, rfl⟩
  | unknown hp hir => exact ⟨_, microStep_iff.2 ⟨hr, .unknown hp hir⟩, rfl⟩

/-! ### What only grows, and what never changes -/

/-- `t` may follow `s` without a reset between them (R30): output and trace are append-only and the memory is the same. -/
structure State.Extends (s t : State) : Prop where
  output_grows : s.output <+: t.output
  trace_grows : s.trace <+: t.trace
  mem_eq : t.mem = s.mem

theorem State.Extends.refl (s : State) : s.Extends s :=
  ⟨by simp, by simp, rfl⟩

theorem State.Extends.trans {s t u : State} (hst : s.Extends t) (htu : t.Extends u) : s.Extends u :=
  ⟨hst.output_grows.trans htu.output_grows, hst.trace_grows.trans htu.trace_grows, htu.mem_eq.trans hst.mem_eq⟩

theorem microStep_extends {s t : State} (h : microStep s = some (.next t)) : s.Extends t := by
  obtain ⟨-, ht⟩ := microStep_iff.1 h
  cases ht with
  | fetch | ldi | out | hlt | unknown => exact ⟨by simp, by simp, by simp⟩

/-! ### The memory is the image -/

theorem Memory.readAt_of_from {n addr : Nat} {m : Memory} (hm : Memory.From n m) (h : addr < n) :
    m.readAt addr = Config.fillByte := by
  induction m with
  | nil => rfl
  | cons c rest ih =>
    obtain ⟨hc, hrest⟩ := List.forall_mem_cons.1 hm
    rw [Memory.readAt, if_neg (by omega), ih hrest]

theorem Memory.readAt_cons {addr : Nat} {v : Byte} {m : Memory} (hm : Memory.From (addr + 1) m) (other : Nat) :
    (Memory.cons addr v m).readAt other = if addr = other then v else m.readAt other := by
  unfold Memory.cons
  split
  · next hv =>
    split
    · next heq => rw [hv, Memory.readAt_of_from hm (by omega)]
    · rfl
  · rfl

theorem Memory.readAt_imageFrom (image : Fin 256 → Byte) (addr : Fin 256) (n : Nat) (hn : n ≤ 256)
    (ha : 256 - n ≤ addr) : (Memory.imageFrom image n).readAt addr = image addr := by
  induction n with
  | zero => omega
  | succ n ih =>
    have hv : (Fin.ofNat 256 (255 - n)).val = 255 - n := by simp only [Fin.val_ofNat]; omega
    have hfrom : Memory.From ((Fin.ofNat 256 (255 - n)).val + 1) (Memory.imageFrom image n) := by
      intro c hc
      have := Memory.imageFrom_from image n (by omega) c hc
      omega
    rw [Memory.imageFrom, Memory.readAt_cons hfrom]
    split
    · next heq => rw [Fin.ext heq]
    · exact ih (by omega) (by omega)

/-- The memory of an image holds `image i` in cell `i` (R32). -/
theorem Memory.read_ofImage (image : Fin 256 → Byte) (addr : Byte) :
    (Memory.ofImage image).read addr = image addr.toFin :=
  Memory.readAt_imageFrom image addr.toFin 256 le_rfl (Nat.zero_le _)

theorem Reachable.mem_eq {image : Fin 256 → Byte} {s : State} (h : Reachable image s) :
    s.mem = Memory.ofImage image := by
  induction h with
  | construct => rfl
  | microStep _ hst ih => rw [(microStep_extends hst).mem_eq, ih]
  | reset _ ih => exact ih

/-- In every reachable state the memory is the image (R33). -/
theorem Reachable.memRead_eq {image : Fin 256 → Byte} {s : State} (h : Reachable image s) (addr : Byte) :
    s.memRead addr = image addr.toFin := by
  rw [State.memRead, h.mem_eq, Memory.read_ofImage]

/-- A reachable Halted state holds the opcode that halted it, and the label says which way (R15, R80). -/
theorem Reachable.halt_cause {image : Fin 256 → Byte} {s : State} (h : Reachable image s) (hh : s.running = false) :
    (s.ir = opcodeHlt ∧ s.lastOp = .halt) ∨ (isUnknownOpcode s.ir = true ∧ s.lastOp = .unknown s.ir) := by
  cases h with
  | construct | reset => simp [State.reset] at hh
  | microStep _ hst => exact microStep_halt_cause hst hh

/-! ### Advances -/

theorem advances_of_halted {s : State} (h : s.running = false) (n : Nat) : advances n s = .next s := by
  induction n with
  | zero => rfl
  | succ n ih => simp [advances, advance, microStep_of_halted h, ih]

theorem advances_succ_of_microStep {s t : State} (h : microStep s = some (.next t)) (n : Nat) :
    advances (n + 1) s = advances n t := by
  simp [advances, advance, h]

/-- Any number of advances completes. -/
theorem exists_advances (n : Nat) (s : State) : ∃ t, advances n s = .next t := by
  induction n generalizing s with
  | zero => exact ⟨s, rfl⟩
  | succ n ih =>
    cases hr : s.running with
    | false => exact ⟨s, advances_of_halted hr _⟩
    | true =>
      obtain ⟨m, hm⟩ := exists_microStep hr
      rw [advances_succ_of_microStep hm]
      exact ih m

theorem advances_extends {n : Nat} {s t : State} (h : advances n s = .next t) : s.Extends t := by
  induction n generalizing s with
  | zero => obtain rfl := Host.Outcome.next.inj h; exact .refl s
  | succ n ih =>
    cases hr : s.running with
    | false =>
      obtain rfl := Host.Outcome.next.inj ((advances_of_halted hr _).symm.trans h)
      exact .refl s
    | true =>
      obtain ⟨m, hm⟩ := exists_microStep hr
      exact (microStep_extends hm).trans (ih (advances_succ_of_microStep hm n ▸ h))

/-- Advances that end Halted passed through one halting micro-step, and nothing changed after it (R30). -/
theorem advances_halt {n : Nat} {s t : State} (h : advances n s = .next t) (hs : s.running = true)
    (ht : t.running = false) :
    ∃ k u, k < n ∧ advances k s = .next u ∧ microStep u = some (.next t) := by
  induction n generalizing s with
  | zero => obtain rfl := Host.Outcome.next.inj h; simp [hs] at ht
  | succ n ih =>
    obtain ⟨m, hm⟩ := exists_microStep hs
    rw [advances_succ_of_microStep hm] at h
    cases hr : m.running with
    | false =>
      obtain rfl := Host.Outcome.next.inj ((advances_of_halted hr n).symm.trans h)
      exact ⟨0, s, n.succ_pos, rfl, hm⟩
    | true =>
      obtain ⟨k, u, hk, hu, hut⟩ := ih h hr
      exact ⟨k + 1, u, Nat.succ_lt_succ hk, (advances_succ_of_microStep hm k).trans hu, hut⟩

/-! ### The obligations -/

theorem byte_toNat_le (b : Byte) : b.toNat ≤ 255 :=
  Nat.le_of_lt_succ b.isLt

/-- Settles O47, from the lemmas on advances: what they extend, and the one micro-step that halts. -/
theorem reachableStatesKeepTheSpecInvariants : Obligations.ReachableStatesKeepTheSpecInvariants := by
  intro image s hs
  refine ⟨⟨byte_toNat_le _, byte_toNat_le _, byte_toNat_le _, byte_toNat_le _, byte_toNat_le _⟩,
    hs.memRead_eq, fun n => ?_⟩
  obtain ⟨t, ht⟩ := exists_advances n s
  obtain ⟨hout, htrace, hmem⟩ := advances_extends ht
  refine ⟨t, ht, hout, htrace, hmem, fun hr => ?_, fun hh hr => ?_⟩
  · exact Host.Outcome.next.inj (ht.symm.trans (advances_of_halted hr n))
  · obtain ⟨k, u, hk, hu, hut⟩ := advances_halt ht hr hh
    obtain ⟨hp, hldi, hout⟩ := (microStep_halts_iff hut).1 hh
    exact ⟨k, u, hk, hu, (microStep_iff.1 hut).1, hp, hldi, hout, hut⟩

/-- Settles O27, from what a micro-step leaves in `A` and its independence of `A` outside `OUT`. -/
theorem accumulatorWrittenByLdiReadByOut : Obligations.AccumulatorWrittenByLdiReadByOut :=
  ⟨fun _ _ h => microStep_a h,
    fun _ hr hp hir => ⟨_, microStep_iff.2 ⟨hr, .out hp hir⟩, by simp⟩,
    fun _ _ x hout h => microStep_with_a x hout h⟩

/-- Settles O28, from what a micro-step leaves in `PC`, `IR` and `A`. -/
theorem pcOnlyAdvances : Obligations.PcOnlyAdvances := by
  refine ⟨fun s t h => ⟨microStep_pc h, fun hp => ?_, fun hp hir => ?_⟩, fun s t h hw hpc => ?_⟩
  · rw [microStep_ir h, if_pos hp]
  · exact (microStep_a h).trans (if_pos ⟨hp, hir⟩)
  · have hinc : t.pc = inc8 s.pc := (microStep_pc h).trans (if_pos hw)
    rw [hinc, hpc]
    rfl

/-- Settles O30, from what a micro-step leaves in `IR` and the cause of a reachable halt. -/
theorem irWrittenOnlyByFetch : Obligations.IrWrittenOnlyByFetch := by
  refine ⟨fun s t h => microStep_ir h,
    fun s hr hp => ⟨microStep_of_execute hr hp, decodeExecute_eq_exec s⟩, fun image s hs hh => ?_⟩
  obtain hhlt | ⟨hunk, hlabel⟩ := hs.halt_cause hh
  · exact .inl hhlt
  · obtain ⟨hldi, hout, hhlt⟩ := (isUnknownOpcode_iff _).1 hunk
    exact .inr ⟨hldi, hout, hhlt, hlabel⟩

end Sys2Proof.Machine
end

section
/-! PROOFS. The family of spec/20_memory.md: nothing but construction writes the memory (R33). -/

namespace Sys2Proof.Machine

/-- Settles O10: a micro-step extends its state and so keeps the memory (`microStep_extends`), reset keeps it by
definition, and `Reachable.memRead_eq` is the induction over construction, micro-steps and resets. -/
theorem memoryStaysTheImage : Obligations.MemoryStaysTheImage := by
  refine ⟨fun s t hstep => ?_, applyReset_mem, fun image s hs addr => ?_⟩
  · exact (microStep_extends hstep).mem_eq
  · exact hs.memRead_eq addr

end Sys2Proof.Machine
end

section
/-! PROOFS. The family of spec/30_encoding.md: the opcode map (R53) and its unknown values. -/

namespace Sys2Proof.Machine

/-! ### Counting the unknown opcodes -/

/-- The default row of the map over opcode numbers instead of bytes (R53). -/
theorem isUnknownOpcode_ofNat_iff {n : Nat} (hn : n < 256) :
    isUnknownOpcode (BitVec.ofNat 8 n) = true ↔ n ≠ 0x10 ∧ n ≠ 0x20 ∧ n ≠ 0xFF := by
  rw [isUnknownOpcode_iff]
  simp only [opcodeLdi, opcodeOut, opcodeHlt]
  bv_omega

/-- Every value of an interval that holds none of the three defined opcodes is unknown. -/
theorem countP_isUnknownOpcode_range' {lo len : Nat} (hbyte : lo + len ≤ 256)
    (hgap : ∀ d ∈ [0x10, 0x20, 0xFF], d < lo ∨ lo + len ≤ d) :
    (List.range' lo len).countP (fun n => isUnknownOpcode (BitVec.ofNat 8 n)) = len := by
  have hall : ∀ n ∈ List.range' lo len, isUnknownOpcode (BitVec.ofNat 8 n) = true := by
    intro n hn
    rw [List.mem_range'_1] at hn
    simp only [List.forall_mem_cons] at hgap
    exact (isUnknownOpcode_ofNat_iff (by omega)).2 (by omega)
  rw [List.countP_eq_length.2 hall, List.length_range']

/-- An interval cut at one of its values. -/
theorem range'_cut (lo gap rest : Nat) :
    List.range' lo (gap + (rest + 1)) = List.range' lo gap ++ (lo + gap) :: List.range' (lo + gap + 1) rest := by
  rw [← List.range'_succ, List.range'_append_1]

/-- The opcode numbers are the three gaps with a defined opcode after each (R53). -/
theorem range_256_eq_gaps : List.range 256 =
    List.range' 0x00 16 ++ 0x10 :: (List.range' 0x11 15 ++ 0x20 :: (List.range' 0x21 222 ++ [0xFF])) := by
  have hout : List.range' 0x11 239 = List.range' 0x11 15 ++ 0x20 :: List.range' 0x21 223 := range'_cut 0x11 15 223
  have hhlt : List.range' 0x21 223 = List.range' 0x21 222 ++ [0xFF] := range'_cut 0x21 222 0
  rw [← hhlt, ← hout, List.range_eq_range']
  exact range'_cut 0x00 16 239

/-! ### The dispatch of the execute micro-step -/

/-- The execute micro-step runs whatever the decoder answers (R62). -/
theorem decodeExecute_of_decode {s : State} {i : Instr} {rest : List Byte}
    (h : decode (s.ir :: s.operandBytes) = .ok (i, rest)) : decodeExecute s = exec i s := by
  rw [decodeExecute, h]

/-! ### The obligation -/

/-- Settles O4, from the decoder's lemma for each row of the map, `decodeExecute_of_decode`, and the count of each gap;
the count of all is the sum over the gaps. -/
theorem opcodeMapIsTheTable : Obligations.OpcodeMapIsTheTable := by
  have hlow := countP_isUnknownOpcode_range' (lo := 0x00) (len := 16) (by decide) (by decide)
  have hmid := countP_isUnknownOpcode_range' (lo := 0x11) (len := 15) (by decide) (by decide)
  have hhigh := countP_isUnknownOpcode_range' (lo := 0x21) (len := 222) (by decide) (by decide)
  refine ⟨decode_opcodeLdi, decode_opcodeOut, decode_opcodeHlt, fun op rest hldi hout hhlt => ?_,
    fun s i rest h => decodeExecute_of_decode h, hlow, hmid, hhigh, ?_⟩
  · exact decode_unknown ((isUnknownOpcode_iff op).2 ⟨hldi, hout, hhlt⟩) rest
  · rw [range_256_eq_gaps]
    simp only [List.countP_append, List.countP_cons, hlow, hmid, hhigh]
    rfl

end Sys2Proof.Machine
end

section
/-! PROOFS. The family of spec/40_cycle.md: the fetch (R60, R61) and execute (R62) micro-steps, the instruction step
(R65), and the state machine of Running and Halted (R67). -/

namespace Sys2Proof.Machine

/-! ### What a micro-step leaves in `phase`, the read registers, the output and the trace -/

section
variable {s t : State} (h : microStep s = some (.next t))
include h

/-- The two micro-steps alternate (R19, R63). -/
theorem microStep_phase : t.phase = if s.phase = .fetch then .execute else .fetch := by
  obtain ⟨-, ht⟩ := microStep_iff.1 h
  cases ht with
  | fetch hp => simp [hp]
  | ldi hp | out hp | hlt hp | unknown hp => simp [hp]

/-- Only fetch and the execute micro-step of `LDI` read memory, at `PC`, and so write `MAR` and `MBR` (R13, R14). -/
theorem microStep_mar_mbr :
    t.mar = (if s.phase = .fetch ∨ s.ir = opcodeLdi then s.pc else s.mar) ∧
    t.mbr = (if s.phase = .fetch ∨ s.ir = opcodeLdi then s.memRead s.pc else s.mbr) := by
  obtain ⟨-, ht⟩ := microStep_iff.1 h
  cases ht with
  | fetch hp => simp [hp]
  | ldi hp hir => simp [hir]
  | out hp hir => simp [hp, hir, opcodeOut_ne_opcodeLdi]
  | hlt hp hir => simp [hp, hir, opcodeHlt_ne_opcodeLdi]
  | unknown hp hir => simp [hp, ((isUnknownOpcode_iff _).1 hir).1]

/-- Only the execute micro-step of `OUT` appends to the output (R23, R76). -/
theorem microStep_output :
    t.output = if s.phase = .execute ∧ s.ir = opcodeOut then s.output ++ [s.a] else s.output := by
  obtain ⟨-, ht⟩ := microStep_iff.1 h
  cases ht with
  | fetch hp => simp [hp]
  | ldi hp hir => simp [hir, opcodeOut_ne_opcodeLdi.symm]
  | out hp hir => simp [hp, hir]
  | hlt hp hir => simp [hir, opcodeHlt_ne_opcodeOut]
  | unknown hp hir => simp [((isUnknownOpcode_iff _).1 hir).2.1]

/-- Every arm of the execute micro-step ends in `endExecute`, whose records show the state it leaves (R62, R70). -/
theorem microStep_trace_of_execute (hp : s.phase = .execute) :
    t.trace = s.trace ++ ⟨.postExecute, t.snapshot⟩ :: (if t.running then [] else [⟨.final, t.snapshot⟩]) := by
  obtain ⟨hr, ht⟩ := microStep_iff.1 h
  cases ht with
  | fetch hp' => simp [hp] at hp'
  | ldi | out => simp [hr]
  | hlt | unknown => simp

/-- A micro-step that does not halt leaves the engine Running (R18). -/
theorem microStep_running_of_not_halt (hn : ¬(s.phase = .execute ∧ s.ir ≠ opcodeLdi ∧ s.ir ≠ opcodeOut)) :
    t.running = true :=
  Bool.of_not_eq_false fun hh => hn ((microStep_halts_iff h).1 hh)

end

/-! ### The fetch micro-step and the step -/

/-- The fetch micro-step leaves what R60 says, field by field. -/
theorem fetch_eq_afterFetch (s : State) : fetch s = Expected.afterFetch s := rfl

/-- The wrap law of the one arithmetic operation (R8, R61). -/
theorem inc8_toNat (x : Byte) : (inc8 x).toNat = (x.toNat + 1) % 256 := by
  simp [inc8, BitVec.toNat_add]

/-- A micro-step that reads memory advances `PC` modulo 256 (R61). -/
theorem microStep_pc_toNat {s t : State} (h : microStep s = some (.next t))
    (hread : s.phase = .fetch ∨ s.ir = opcodeLdi) : t.pc.toNat = (s.pc.toNat + 1) % 256 := by
  rw [microStep_pc h, if_pos hread, inc8_toNat]

/-- At an instruction boundary the step is the micro-step after the fetch (R65). -/
theorem microStep_fetch_eq_step {s : State} (hr : s.running = true) (hp : s.phase = .fetch) :
    microStep (fetch s) = some (step s) := by
  rw [step_of_fetch hr hp, microStep_of_execute (s := fetch s) hr rfl]

/-- A reachable Halted state has phase FETCH (R63, R67): only a halt clears `running`, and it ends an execute. -/
theorem Reachable.phase_of_halted {image : Fin 256 → Byte} {s : State} (h : Reachable image s)
    (hh : s.running = false) : s.phase = .fetch := by
  cases h with
  | construct | reset => rfl
  | microStep _ hst =>
    obtain ⟨hp, -, -⟩ := (microStep_halts_iff hst).1 hh
    simp [microStep_phase hst, hp]

/-! ### The obligations -/

/-- Settles O24: the dispatch is the lemma for each row of the map, and the frame is what a micro-step leaves in each
field. -/
theorem executeDispatchesOnIr : Obligations.ExecuteDispatchesOnIr := by
  refine ⟨fun s hr hp => ?_, fun s hr hp => ?_⟩
  · rw [microStep_of_execute hr hp]
    exact ⟨fun hir => congrArg some (decodeExecute_ldi hir), fun hir => congrArg some (decodeExecute_out hir),
      fun hir => congrArg some (decodeExecute_hlt hir), fun hldi hout hhlt =>
        congrArg some (decodeExecute_unknown ((isUnknownOpcode_iff _).2 ⟨hldi, hout, hhlt⟩))⟩
  · obtain ⟨t, ht⟩ := exists_microStep hr
    have hnf : s.phase ≠ .fetch := by simp [hp]
    refine ⟨t, ht, by simp [microStep_phase ht, hp], by simp [microStep_ir ht, hp], (microStep_extends ht).mem_eq,
      fun hldi => ?_, fun hout => ?_, fun hir => ?_, microStep_trace_of_execute ht hp⟩
    · have hnoread : ¬(s.phase = .fetch ∨ s.ir = opcodeLdi) := not_or.2 ⟨hnf, hldi⟩
      obtain ⟨hmar, hmbr⟩ := microStep_mar_mbr ht
      exact ⟨(microStep_pc ht).trans (if_neg hnoread), hmar.trans (if_neg hnoread), hmbr.trans (if_neg hnoread),
        (microStep_a ht).trans (if_neg fun hc => hldi hc.2)⟩
    · exact (microStep_output ht).trans (if_neg fun hc => hout hc.2)
    · exact microStep_running_of_not_halt ht fun ⟨_, hldi, hout⟩ => hir.elim hldi hout

/-- Settles O32, from the condition on which a micro-step halts and the phase it leaves. -/
theorem stateMachineTransitions : Obligations.StateMachineTransitions := by
  refine ⟨fun s hr hp => ⟨_, microStep_of_fetch hr hp, hr, rfl⟩, fun s hr hp hir => ?_, fun s hr hp hldi hout => ?_,
    fun s => microStep_of_halted, fun s => ⟨rfl, rfl⟩, fun image s => Reachable.phase_of_halted⟩
  · obtain ⟨t, ht⟩ := exists_microStep hr
    exact ⟨t, ht, microStep_running_of_not_halt ht fun ⟨_, hldi, hout⟩ => hir.elim hldi hout,
      by simp [microStep_phase ht, hp]⟩
  · obtain ⟨t, ht⟩ := exists_microStep hr
    exact ⟨t, ht, (microStep_halts_iff ht).2 ⟨hp, hldi, hout⟩, by simp [microStep_phase ht, hp]⟩

/-- Settles O35: the middle state is the fetch, and the step is the micro-step from it (`microStep_fetch_eq_step`). -/
theorem stepIsFetchThenExecute : Obligations.StepIsFetchThenExecute := by
  intro s hr hp
  obtain ⟨t, ht⟩ := exists_microStep (s := fetch s) hr
  have hstep : step s = .next t := Option.some.inj ((microStep_fetch_eq_step hr hp).symm.trans ht)
  refine ⟨fetch s, t, microStep_of_fetch hr hp, hr, rfl, ht, hstep, ?_⟩
  rw [microStep_trace_of_execute ht rfl, fetch_trace, List.append_assoc, List.singleton_append]

/-- Settles O13, from the state R60 gives. -/
theorem fetchMicroStep : Obligations.FetchMicroStep := by
  intro s hr hp
  rw [microStep_of_fetch hr hp, fetch_eq_afterFetch]

/-- Settles O14: both micro-steps read memory and so advance `PC`. -/
theorem pcAdvancesModulo256 : Obligations.PcAdvancesModulo256 := by
  refine ⟨fun s hr hp => ?_, fun s hr _ hir => ?_⟩
  · obtain ⟨t, ht⟩ := exists_microStep hr
    exact ⟨t, ht, microStep_pc_toNat ht (.inl hp)⟩
  · obtain ⟨t, ht⟩ := exists_microStep hr
    exact ⟨t, ht, microStep_pc_toNat ht (.inr hir)⟩

end Sys2Proof.Machine
end

section
/-! PROOFS. The family of spec/41_load.md: how far `LDI` advances `PC` (R75). -/

namespace Sys2Proof.Machine

/-- At an instruction boundary the step completes, in the state the micro-step after the fetch leads to (R65). -/
theorem exists_step_of_fetch {s : State} (hr : s.running = true) (hp : s.phase = .fetch) :
    ∃ t, microStep (fetch s) = some (.next t) ∧ step s = .next t := by
  obtain ⟨t, ht⟩ := exists_microStep (s := fetch s) hr
  exact ⟨t, ht, Option.some.inj ((microStep_fetch_eq_step hr hp).symm.trans ht)⟩

/-- Settles O20: the execute micro-step of `LDI` is a memory read, and so is the fetch before it; the step's advance is
the sum of their two. -/
theorem ldiAdvancesPcByTwo : Obligations.LdiAdvancesPcByTwo := by
  refine ⟨fun s hr hp hir => ?_, fun s hr hp hop => ?_⟩
  · obtain ⟨t, ht⟩ := exists_microStep hr
    have hread : s.phase = .fetch ∨ s.ir = opcodeLdi := .inr hir
    obtain ⟨hmar, hmbr⟩ := microStep_mar_mbr ht
    refine ⟨t, ht, microStep_pc_toNat ht hread, ?_, hmbr.trans (if_pos hread), hmar.trans (if_pos hread), ?_⟩
    · exact (microStep_a ht).trans (if_pos ⟨hp, hir⟩)
    · simp [microStep_ir ht, hp]
  · obtain ⟨t, ht, hstep⟩ := exists_step_of_fetch hr hp
    have hfetch : (fetch s).pc.toNat = (s.pc.toNat + 1) % 256 := inc8_toNat s.pc
    have hexec : t.pc.toNat = ((fetch s).pc.toNat + 1) % 256 := microStep_pc_toNat ht (.inr hop)
    exact ⟨t, hstep, by omega⟩

end Sys2Proof.Machine
end

section
/-! PROOFS. The family of spec/42_output.md: `OUT` appends `A` to the output (R76). -/

namespace Sys2Proof.Machine

/-- With `IR` = 0x20 the execute micro-step of a Running engine leaves what R76 says. -/
theorem decodeExecute_eq_afterOut {s : State} (hr : s.running = true) (hir : s.ir = opcodeOut) :
    decodeExecute s = .next (Expected.afterOut s) :=
  calc decodeExecute s
    _ = .next ((s.appendOutput s.a).setLastOp (.out s.a)).endExecute := decodeExecute_out hir
    _ = .next (Expected.afterOut s) := congrArg Host.Outcome.next (State.endExecute_of_running _ hr)

/-- Settles O21: the execute micro-step leaves `Expected.afterOut`, and the step leaves that of the fetched state. -/
theorem outEmitsTheAccumulator : Obligations.OutEmitsTheAccumulator := by
  refine ⟨decode_opcodeOut, fun s hr hp hir => ?_, fun s hr hp hop => ?_⟩
  · rw [microStep_of_execute hr hp, decodeExecute_eq_afterOut hr hir]
  · have hstep : step s = .next (Expected.afterOut (fetch s)) :=
      (step_of_fetch hr hp).trans (decodeExecute_eq_afterOut (s := fetch s) hr hop)
    exact ⟨_, hstep, rfl, rfl, rfl, hop, hop, rfl, rfl, hr⟩

end Sys2Proof.Machine
end

section
/-! PROOFS. The family of spec/43_halt.md: `HLT` (R78) and the unknown opcodes (R79) halt the engine. -/

namespace Sys2Proof.Machine

/-- With `IR` = 0xFF the execute micro-step leaves what R78 says. -/
theorem decodeExecute_eq_afterHlt {s : State} (hir : s.ir = opcodeHlt) :
    decodeExecute s = .next (Expected.afterHlt s) :=
  calc decodeExecute s
    _ = .next (s.halt .halt).endExecute := decodeExecute_hlt hir
    _ = .next (Expected.afterHlt s) := congrArg Host.Outcome.next (State.endExecute_of_halted _ rfl)

/-- With an unknown opcode in `IR` the execute micro-step leaves what R79 says. -/
theorem decodeExecute_eq_afterUnknown {s : State} (hir : isUnknownOpcode s.ir = true) :
    decodeExecute s = .next (Expected.afterUnknown s.ir s) :=
  calc decodeExecute s
    _ = .next (s.halt (.unknown s.ir)).endExecute := decodeExecute_unknown hir
    _ = .next (Expected.afterUnknown s.ir s) := congrArg Host.Outcome.next (State.endExecute_of_halted _ rfl)

/-- A reachable state with phase EXECUTE is one that a fetch has just left (R60, R79): every other way into a state,
reset among them, leaves phase FETCH. -/
theorem Reachable.eq_fetch_of_execute {image : Fin 256 → Byte} {s : State} (h : Reachable image s)
    (hp : s.phase = .execute) : ∃ r, Reachable image r ∧ s = fetch r := by
  cases h with
  | construct | reset => simp [State.reset] at hp
  | @microStep r _ hr hst =>
    obtain ⟨-, ht⟩ := microStep_iff.1 hst
    cases ht with
    | fetch => exact ⟨r, hr, rfl⟩
    | ldi | out | hlt | unknown => simp at hp

/-- Settles O22: the execute micro-step leaves `Expected.afterHlt`, which is Halted, so no advance changes it; the step
leaves that of the fetched state. -/
theorem hltHaltsUntilReset : Obligations.HltHaltsUntilReset := by
  refine ⟨decode_opcodeHlt, fun s hr hp hir => ?_, fun s hr hp hop => ?_⟩
  · have hhalted : (Expected.afterHlt s).running = false := rfl
    refine ⟨?_, microStep_of_halted hhalted, advances_of_halted hhalted, rfl⟩
    rw [microStep_of_execute hr hp, decodeExecute_eq_afterHlt hir]
  · have hstep : step s = .next (Expected.afterHlt (fetch s)) :=
      (step_of_fetch hr hp).trans (decodeExecute_eq_afterHlt (s := fetch s) hop)
    exact ⟨_, hstep, rfl, rfl, rfl, hop, hop, rfl, rfl, rfl⟩

/-- Settles O23: the execute micro-step leaves `Expected.afterUnknown`, the step leaves that of the fetched state, and a
reachable state with phase EXECUTE is a fetch's (`Reachable.eq_fetch_of_execute`), which read the image. -/
theorem unknownOpcodeHalts : Obligations.UnknownOpcodeHalts := by
  refine ⟨fun u rest hldi hout hhlt => decode_unknown ((isUnknownOpcode_iff u).2 ⟨hldi, hout, hhlt⟩) rest,
    fun s hr hp hldi hout hhlt => ?_, fun s hr hp hldi hout hhlt => ?_, fun image s hs hp => ?_⟩
  · have hunk : isUnknownOpcode s.ir = true := (isUnknownOpcode_iff _).2 ⟨hldi, hout, hhlt⟩
    rw [microStep_of_execute hr hp, decodeExecute_eq_afterUnknown hunk]
  · have hunk : isUnknownOpcode (fetch s).ir = true := (isUnknownOpcode_iff _).2 ⟨hldi, hout, hhlt⟩
    have hstep : step s = .next (Expected.afterUnknown (fetch s).ir (fetch s)) :=
      (step_of_fetch hr hp).trans (decodeExecute_eq_afterUnknown hunk)
    exact ⟨_, hstep, rfl, rfl, rfl, rfl, rfl, rfl, rfl, rfl⟩
  · obtain ⟨r, hr, rfl⟩ := hs.eq_fetch_of_execute hp
    exact ⟨rfl, hr.memRead_eq r.pc⟩

end Sys2Proof.Machine
end

section
/-! PROOFS. The decoder and the encoder are inverse to each other, and the bits of the table's rows (R49 to R53). -/

namespace Sys2Proof.Machine

/-! ### Decode and encode -/

/-- Settles O2, by the decoder's lemma for each row of the map; `isUnknownOpcode` is what keeps the default row apart. -/
theorem decodeInvertsEncode : Obligations.DecodeInvertsEncode := by
  intro i hwf rest
  cases i with
  | ldi imm8 => exact decode_opcodeLdi imm8 rest
  | out => exact decode_opcodeOut rest
  | hlt => exact decode_opcodeHlt rest
  | unknown op => exact decode_unknown hwf rest

/-- Settles O3, by the four ways a list can decode (`decode_cases`). -/
theorem decodedInstructionsReencode : Obligations.DecodedInstructionsReencode := by
  intro bytes i rest h
  obtain ⟨imm8, rfl, rfl⟩ | ⟨rfl, rfl⟩ | ⟨rfl, rfl⟩ | ⟨op, rfl, hunk, rfl⟩ := decode_cases h
  · exact ⟨rfl, rfl⟩
  · exact ⟨rfl, rfl⟩
  · exact ⟨rfl, rfl⟩
  · exact ⟨hunk, rfl⟩

/-- Settles O5, by the four ways a list can decode (`decode_cases`). -/
theorem lengthComesFromOpcodeByte : Obligations.LengthComesFromOpcodeByte := by
  refine ⟨fun op tail i rest h => ?_, rfl, rfl⟩
  obtain ⟨imm8, -, hb⟩ | ⟨-, hb⟩ | ⟨-, hb⟩ | ⟨u, -, hunk, hb⟩ := decode_cases h <;>
    obtain ⟨rfl, rfl⟩ := List.cons.inj hb
  · rfl
  · rfl
  · rfl
  · have hldi : op ≠ 0x10 := ((isUnknownOpcode_iff op).1 hunk).1
    rw [if_neg hldi, List.drop_succ_cons, List.drop_zero]

/-- Settles O1, by the decoder's lemma for each row of the map. -/
theorem specWordsDecode : Obligations.SpecWordsDecode :=
  ⟨decode_opcodeLdi _ _, decode_opcodeLdi _ _, decode_opcodeOut _, decode_opcodeHlt _,
    decode_unknown (by decide) _, decode_unknown (by decide) _, decode_unknown (by decide) _,
    decode_unknown (by decide) _, decode_unknown (by decide) _, decode_unknown (by decide) _⟩

/-! ### The bits of a row -/

theorem decodeTableWord_of_decode {nbits w : Nat} {first second : Byte} {i : Instr} {rest : List Byte}
    (hfirst : tableByte nbits w 0 = first) (hsecond : tableByte nbits w 1 = second)
    (h : decode [first, second] = .ok (i, rest)) : decodeTableWord nbits w = some i := by
  rw [decodeTableWord, hfirst, hsecond, h]

theorem decode_of_decodeTableWord {nbits w : Nat} {i : Instr} (h : decodeTableWord nbits w = some i) :
    ∃ rest, decode [tableByte nbits w 0, tableByte nbits w 1] = .ok (i, rest) := by
  cases hd : decode [tableByte nbits w 0, tableByte nbits w 1] with
  | error e => simp [decodeTableWord, hd] at h
  | ok p =>
    obtain ⟨j, rest⟩ := p
    simp only [decodeTableWord, hd, Option.some.injEq] at h
    exact ⟨rest, by rw [h]⟩

/-- The first byte of a row of 8 bits is the row, whatever stands above it. -/
theorem tableByte_8_first (op : Byte) (above : Nat) : tableByte 8 (op.toNat + 256 * above) 0 = op := by
  apply BitVec.eq_of_toNat_eq
  simp only [tableByte, BitVec.toNat_ofNat]
  have := op.isLt
  omega

/-- The two bytes of a row of 16 bits, whatever stands above it. -/
theorem tableByte_16 (first second : Byte) (above : Nat) :
    tableByte 16 (first.toNat + 256 * second.toNat + 65536 * above) 0 = first ∧
    tableByte 16 (first.toNat + 256 * second.toNat + 65536 * above) 1 = second := by
  have hfirst := first.isLt
  have hsecond := second.isLt
  constructor <;> apply BitVec.eq_of_toNat_eq <;> simp only [tableByte, BitVec.toNat_ofNat] <;> omega

/-- Settles O6: the bits are laid out as the row's bytes (`tableByte_16`, `tableByte_8_first`), and those decode by the
lemma for the row. -/
theorem tableWordsDecode : Obligations.TableWordsDecode := by
  refine ⟨fun imm8 above => ?_, fun above => ?_, fun above => ?_, fun op above hldi hout hhlt => ?_⟩
  · obtain ⟨hfirst, hsecond⟩ := tableByte_16 opcodeLdi imm8 above
    exact decodeTableWord_of_decode hfirst hsecond (decode_opcodeLdi imm8 [])
  · exact decodeTableWord_of_decode (tableByte_8_first opcodeOut above) rfl (decode_opcodeOut _)
  · exact decodeTableWord_of_decode (tableByte_8_first opcodeHlt above) rfl (decode_opcodeHlt _)
  · have hunk := (isUnknownOpcode_iff op).2 ⟨hldi, hout, hhlt⟩
    exact decodeTableWord_of_decode (tableByte_8_first op above) rfl (decode_unknown hunk _)

end Sys2Proof.Machine
end

section
/-! PROOFS. Reading after a loader's write, and the memory as a function of what it reads (R31 to R33). -/

namespace Sys2Proof.Machine

theorem Memory.from_of_wf_cons {n : Nat} {c : Host.Cell} {m : Memory} (h : Memory.wf (c :: m)) (hn : n ≤ c.1) :
    Memory.From n (c :: m) := by
  refine List.forall_mem_cons.2 ⟨hn, fun d hd => ?_⟩
  have := Memory.from_tail h d hd
  omega

/-- The read-after-write law of one cell. -/
theorem Memory.readAt_writeAt {m : Memory} (h : m.wf) (addr : Nat) (v : Byte) (other : Nat) :
    (m.writeAt addr v).readAt other = if addr = other then v else m.readAt other := by
  induction m with
  | nil => exact Memory.readAt_cons (by simp [Memory.From]) other
  | cons c rest ih =>
    unfold Memory.writeAt
    split
    · next hlt => exact Memory.readAt_cons (Memory.from_of_wf_cons h hlt) other
    · split
      · next heq =>
        have hfrom : Memory.From (addr + 1) rest := heq ▸ Memory.from_tail h
        rw [Memory.readAt_cons hfrom, Memory.readAt]
        split
        · rfl
        · next hne => rw [if_neg (by omega)]
      · next hne =>
        rw [Memory.readAt, ih (Memory.wf_tail h), Memory.readAt]
        split
        · next hc => rw [if_neg (by omega)]
        · rfl

/-- The read-after-write law (R32, R33). -/
theorem Memory.read_write {m : Memory} (h : m.wf) (addr other v : Byte) :
    (m.write addr v).read other = if other = addr then v else m.read other := by
  simp only [Memory.read, Memory.write, Memory.readAt_writeAt h, BitVec.toNat_inj, eq_comm (a := addr)]

/-- A canonical memory has at its first listed address a byte that is not the fill byte. -/
theorem Memory.readAt_head_ne_fill {c : Host.Cell} {m : Memory} (h : Memory.wf (c :: m)) :
    Memory.readAt (c :: m) c.1 ≠ Config.fillByte := by
  obtain ⟨-, hfill⟩ := h.2 c List.mem_cons_self
  rwa [Memory.readAt, if_pos rfl]

/-- Of two canonical memories that read alike neither lists an address below the other's first: there the other reads the
fill byte. -/
theorem Memory.head_addr_le {c c' : Host.Cell} {m m' : Memory} (h : Memory.wf (c :: m)) (h' : Memory.wf (c' :: m'))
    (heq : ∀ addr < Config.memSize, Memory.readAt (c :: m) addr = Memory.readAt (c' :: m') addr) : c'.1 ≤ c.1 := by
  by_contra hlt
  obtain ⟨hc, -⟩ := h.2 c List.mem_cons_self
  apply Memory.readAt_head_ne_fill h
  rw [heq c.1 hc, Memory.readAt_of_from (Memory.from_of_wf_cons h' le_rfl) (by omega)]

/-- The canonical form is determined by the bytes read. -/
theorem Memory.ext_of_readAt {m m' : Memory} (h : m.wf) (h' : m'.wf)
    (heq : ∀ addr < Config.memSize, m.readAt addr = m'.readAt addr) : m = m' := by
  induction m generalizing m' with
  | nil =>
    cases m' with
    | nil => rfl
    | cons c' rest' =>
      obtain ⟨hc', -⟩ := h'.2 c' List.mem_cons_self
      exact absurd (heq c'.1 hc').symm (Memory.readAt_head_ne_fill h')
  | cons c rest ih =>
    cases m' with
    | nil =>
      obtain ⟨hc, -⟩ := h.2 c List.mem_cons_self
      exact absurd (heq c.1 hc) (Memory.readAt_head_ne_fill h)
    | cons c' rest' =>
      have haddr : c.1 = c'.1 :=
        le_antisymm (Memory.head_addr_le h' h fun a ha => (heq a ha).symm) (Memory.head_addr_le h h' heq)
      obtain ⟨hc, -⟩ := h.2 c List.mem_cons_self
      have hbyte : c.2 = c'.2 := by simpa [Memory.readAt, haddr] using heq c.1 hc
      have hrest : rest = rest' := by
        refine ih (Memory.wf_tail h) (Memory.wf_tail h') fun addr ha => ?_
        by_cases hle : addr ≤ c.1
        · rw [Memory.readAt_of_from (Memory.from_tail h) (by omega),
            Memory.readAt_of_from (Memory.from_tail h') (by omega)]
        · have hread := heq addr ha
          rwa [Memory.readAt, Memory.readAt, if_neg (by omega), if_neg (by omega)] at hread
      rw [Prod.ext haddr hbyte, hrest]

/-! ### The obligations -/

/-- Settles O7, the read-after-write law. -/
theorem readAfterLoaderWrite : Obligations.ReadAfterLoaderWrite :=
  fun _ h => Memory.read_write h

/-- Settles O8: the 256 byte addresses are those below `memSize`, so `Memory.ext_of_readAt` applies. -/
theorem canonicalMemoriesWithEqualReadsAreEqual : Obligations.CanonicalMemoriesWithEqualReadsAreEqual := by
  intro m m' h h' heq
  refine Memory.ext_of_readAt h h' fun addr ha => ?_
  have hread := heq (BitVec.ofNat 8 addr)
  have htoNat : (BitVec.ofNat 8 addr).toNat = addr := Nat.mod_eq_of_lt ha
  rwa [Memory.read, Memory.read, htoNat] at hread

/-- Settles O9: the memory is the image's (`Memory.read_ofImage`), and the rest is reset's by definition. -/
theorem constructionHoldsTheImage : Obligations.ConstructionHoldsTheImage :=
  fun image => ⟨Memory.read_ofImage image, rfl, rfl⟩

end Sys2Proof.Machine
end

section
/-! PROOFS. The invariant of Safety.lean: reset and construction establish it, and every micro-step, and so every step,
keeps it. -/

namespace Sys2Proof.Machine

/-! ### The records a micro-step leaves -/

section
variable {s t : State} (h : microStep s = some (.next t))
include h

/-- A fetch leaves one record, of the state it leaves (R69). -/
theorem microStep_trace_of_fetch (hp : s.phase = .fetch) : t.trace = s.trace ++ [⟨.postFetch, t.snapshot⟩] := by
  obtain ⟨-, ht⟩ := microStep_iff.1 h
  cases ht with
  | fetch => exact fetch_trace s
  | ldi hp' | out hp' | hlt hp' | unknown hp' => simp [hp] at hp'

/-- A micro-step leaves at least one record, and all of them show the state it leaves (R64, R69, R70). -/
theorem microStep_new_records :
    ∃ new, t.trace = s.trace ++ new ∧ new ≠ [] ∧ ∀ r ∈ new, r.snapshot = t.snapshot := by
  cases hp : s.phase with
  | fetch => exact ⟨_, microStep_trace_of_fetch h hp, by simp, by simp⟩
  | execute => exact ⟨_, microStep_trace_of_execute h hp, by simp, by cases t.running <;> simp⟩

end

/-! ### The last read -/

theorem State.memRead_eq_of_mem_eq {s t : State} (hmem : t.mem = s.mem) (addr : Byte) :
    t.memRead addr = s.memRead addr := by
  rw [State.memRead, hmem, State.memRead]

/-- A micro-step that reads memory leaves the read in `MAR` and `MBR`; any other keeps the last one (R13, R14). -/
theorem microStep_last_read {s t : State} (h : microStep s = some (.next t))
    (hs : s.phase = .execute → s.mbr = s.memRead s.mar) : t.mbr = t.memRead t.mar := by
  obtain ⟨hmar, hmbr⟩ := microStep_mar_mbr h
  rw [State.memRead_eq_of_mem_eq (microStep_extends h).mem_eq, hmar, hmbr]
  split
  · rfl
  · next hread =>
    cases hp : s.phase with
    | fetch => exact absurd (.inl hp) hread
    | execute => exact hs hp

/-! ### Render points -/

theorem State.lastPoints_of_fetch {s : State} (hr : s.running = true) (hp : s.phase = .fetch) : s.lastPoints = [] := by
  simp [State.lastPoints, hr, hp]

theorem State.lastPoints_of_execute {s : State} (hr : s.running = true) (hp : s.phase = .execute) :
    s.lastPoints = [.postFetch] := by
  simp [State.lastPoints, hr, hp]

theorem State.lastPoints_of_halted {s : State} (hh : s.running = false) : s.lastPoints = [.final] := by
  simp [State.lastPoints, hh]

/-- A fetch adds POST_FETCH to the points of whole instruction steps. -/
theorem microStep_points_of_fetch {s t : State} {n : Nat} (h : microStep s = some (.next t)) (hp : s.phase = .fetch)
    (hs : s.points = roundPoints n ++ s.lastPoints) : t.points = roundPoints n ++ t.lastPoints := by
  have hr := (microStep_iff.1 h).1
  have htr : t.running = true := microStep_running_of_not_halt h fun ⟨he, _⟩ => by simp [hp] at he
  have htp : t.phase = .execute := by simp [microStep_phase h, hp]
  rw [State.lastPoints_of_fetch hr hp, List.append_nil] at hs
  rw [State.lastPoints_of_execute htr htp, ← hs, State.points, microStep_trace_of_fetch h hp]
  simp [State.points]

/-- An execute micro-step makes the instruction step whole, and adds FINAL if it halts. -/
theorem microStep_points_of_execute {s t : State} {n : Nat} (h : microStep s = some (.next t))
    (hp : s.phase = .execute) (hs : s.points = roundPoints n ++ s.lastPoints) :
    t.points = roundPoints (n + 1) ++ t.lastPoints := by
  have hr := (microStep_iff.1 h).1
  have htp : t.phase = .fetch := by simp [microStep_phase h, hp]
  rw [State.lastPoints_of_execute hr hp] at hs
  have htrace : t.points = s.points ++ .postExecute :: t.lastPoints := by
    rw [State.points, microStep_trace_of_execute h hp]
    cases hh : t.running with
    | true => simp [State.points, State.lastPoints_of_fetch hh htp]
    | false => simp [State.points, State.lastPoints_of_halted hh]
  simp [htrace, hs, roundPoints]

/-! ### What the trace records as emitted -/

/-- The output and the bytes that the trace records as emitted grow alike (R23, R76). -/
theorem microStep_emittedBytes {s t : State} (h : microStep s = some (.next t))
    (hs : s.output = emittedBytes s.trace) : t.output = emittedBytes t.trace := by
  obtain ⟨hr, ht⟩ := microStep_iff.1 h
  cases ht with
  | fetch => simp [hs, emittedBytes]
  | ldi | out | hlt | unknown => simp [hr, hs, emittedBytes]

/-! ### The invariant -/

/-- Between the micro-steps of an instruction the trace is not empty: it ends in POST_FETCH. -/
theorem Inv.trace_ne_nil_of_execute {s : State} (hs : Inv s) (hr : s.running = true) (hp : s.phase = .execute) :
    s.trace ≠ [] := by
  obtain ⟨n, hpoints, -⟩ := hs.trace_shape
  rw [State.lastPoints_of_execute hr hp] at hpoints
  intro hnil
  simp [State.points, hnil] at hpoints

/-- Every micro-step keeps the invariant, each clause from what a micro-step leaves in the fields it speaks of. -/
theorem Inv.of_microStep {s t : State} (hs : Inv s) (h : microStep s = some (.next t)) : Inv t := by
  have hr : s.running = true := (microStep_iff.1 h).1
  obtain ⟨hout, -, hmem⟩ := microStep_extends h
  obtain ⟨new, hnew, hne, hshow⟩ := microStep_new_records h
  exact {
    mem_wf := hmem ▸ hs.mem_wf
    halted_at_boundary := fun hh => by
      obtain ⟨hp, -, -⟩ := (microStep_halts_iff h).1 hh
      simp [microStep_phase h, hp]
    trace_shape := by
      obtain ⟨n, hpoints, -⟩ := hs.trace_shape
      cases hp : s.phase with
      | fetch =>
        refine ⟨n, microStep_points_of_fetch h hp hpoints, fun hh => ?_⟩
        obtain ⟨he, -, -⟩ := (microStep_halts_iff h).1 hh
        simp [hp] at he
      | execute => exact ⟨n + 1, microStep_points_of_execute h hp hpoints, fun _ => n.succ_pos⟩
    last_record_current := fun r hlast => by
      rw [hnew, List.getLast?_append_of_ne_nil _ hne] at hlast
      exact hshow r (List.mem_of_getLast? hlast)
    last_read := fun _ => microStep_last_read h fun hp => hs.last_read (hs.trace_ne_nil_of_execute hr hp)
    just_fetched := fun hp => by
      obtain ⟨-, ht⟩ := microStep_iff.1 h
      cases ht with
      | fetch => exact ⟨rfl, rfl, rfl⟩
      | ldi | out | hlt | unknown => simp at hp
    halt_cause := microStep_halt_cause h
    output_traced := microStep_emittedBytes h hs.output_traced
    outputs_append_only := fun r hmem => by
      obtain hold | hnew := List.mem_append.1 (hnew ▸ hmem)
      · exact (hs.outputs_append_only r hold).trans hout
      · rw [hshow r hnew, State.snapshot_output] }

/-- The invariant holds of the reset state with any canonical memory. -/
theorem Inv.reset_with_mem {m : Memory} (hm : m.wf) : Inv { State.reset with mem := m } where
  mem_wf := hm
  halted_at_boundary _ := rfl
  trace_shape := ⟨0, rfl, nofun⟩
  last_record_current := nofun
  last_read h := absurd rfl h
  just_fetched := nofun
  halt_cause := nofun
  output_traced := rfl
  outputs_append_only := nofun

/-! ### The obligations -/

/-- Settles O45, the step lemma of the invariant. -/
theorem microStepKeepsInvariant : Obligations.MicroStepKeepsInvariant :=
  fun _ _ hs h => hs.of_microStep h

/-- Settles O46: a step is no micro-step, the one that is left, or a fetch and the one after it. -/
theorem stepKeepsInvariant : Obligations.StepKeepsInvariant := by
  intro s t hs h
  obtain ⟨-, rfl⟩ | ⟨hr, hp, hd⟩ | ⟨hr, hp, hd⟩ := step_cases h
  · exact hs
  · exact hs.of_microStep ((microStep_of_execute hr hp).trans (congrArg some hd))
  · have hfetch : Inv (fetch s) := hs.of_microStep (microStep_of_fetch hr hp)
    exact hfetch.of_microStep ((microStep_fetch_eq_step hr hp).trans (congrArg some h))

/-- Settles O44: reset and construction leave the reset state with a canonical memory. -/
theorem resetMeetsInvariant : Obligations.ResetMeetsInvariant :=
  ⟨Inv.reset_with_mem State.reset_mem_wf, fun image => Inv.reset_with_mem (Memory.wf_ofImage image),
    fun _ hm => Inv.reset_with_mem hm⟩

end Sys2Proof.Machine
end

section
/-! PROOFS. The hardware layout of a trace record (R26) can be read back, given the output. -/

namespace Sys2Proof.Machine

/-- The label that a kind code and two fields stand for. `Label.ofLayout_layout` ties it to the layout. -/
def Label.ofLayout (kind : BitVec 3) (field1 field2 : Byte) : Label :=
  if kind = 1 then .fetch field1 field2
  else if kind = 2 then .load field1 field2
  else if kind = 3 then .out field1
  else if kind = 4 then .halt
  else if kind = 5 then .unknown field1
  else .none

theorem Label.ofLayout_layout (l : Label) : Label.ofLayout l.kindCode l.field1 l.field2 = l := by
  cases l <;> rfl

/-- The render point that a code stands for. `RenderPoint.ofCode_code` ties it to the layout. -/
def RenderPoint.ofCode (code : BitVec 2) : RenderPoint :=
  if code = 0 then .postFetch else if code = 1 then .postExecute else .final

theorem RenderPoint.ofCode_code (p : RenderPoint) : RenderPoint.ofCode p.code = p := by
  cases p <;> rfl

/-- The trace record of a hardware record and the bytes of the output. `HwRecord.toRecord_toHw` ties it to the layout. -/
def HwRecord.toRecord (w : HwRecord) (output : List Byte) : TraceRecord where
  point := RenderPoint.ofCode w.point
  snapshot :=
    { pc := w.pc, mar := w.mar, mbr := w.mbr, ir := w.ir, a := w.a,
      lastOp := Label.ofLayout w.opKind w.opF1 w.opF2, output := output, running := w.running }

theorem HwRecord.toRecord_toHw (r : TraceRecord) : r.toHw.toRecord r.snapshot.output = r := by
  simp only [HwRecord.toRecord, TraceRecord.toHw, RenderPoint.ofCode_code, Label.ofLayout_layout]

/-- Settles O49: the layout has an inverse, and what the output began with is fixed by its length. -/
theorem hardwareRecordsLoseNothing : Obligations.HardwareRecordsLoseNothing := by
  refine ⟨fun r r' hhw hout => ?_, fun s hs r hr => ?_⟩
  · rw [← HwRecord.toRecord_toHw r, hhw, hout, HwRecord.toRecord_toHw]
  · exact List.prefix_iff_eq_take.1 (hs.outputs_append_only r hr)

end Sys2Proof.Machine
end

section
/-! PROOFS. The four instructions one by one (R74, R76, R78, R79): the state each leaves, and its frame (R17). -/

namespace Sys2Proof.Machine

/-! ### What exec answers -/

/-- In a Running state `LDI` leaves what R74 says. -/
theorem exec_ldi_eq_afterLdi (imm8 : Byte) {s : State} (hr : s.running = true) :
    exec (.ldi imm8) s = .next (Expected.afterLdi imm8 s) :=
  congrArg Host.Outcome.next (State.endExecute_of_running _ hr)

/-- In a Running state `OUT` leaves what R76 says. -/
theorem exec_out_eq_afterOut {s : State} (hr : s.running = true) : exec .out s = .next (Expected.afterOut s) :=
  congrArg Host.Outcome.next (State.endExecute_of_running _ hr)

/-- `HLT` leaves what R78 says. -/
theorem exec_hlt_eq_afterHlt (s : State) : exec .hlt s = .next (Expected.afterHlt s) :=
  congrArg Host.Outcome.next (State.endExecute_of_halted _ rfl)

/-- An unknown opcode leaves what R79 says. -/
theorem exec_unknown_eq_afterUnknown (op : Byte) (s : State) :
    exec (.unknown op) s = .next (Expected.afterUnknown op s) :=
  congrArg Host.Outcome.next (State.endExecute_of_halted _ rfl)

/-- The state exec leaves, one constructor for each arm. `execTo_of_exec` ties it to `exec`. -/
inductive ExecTo (s : State) : Instr → State → Prop
  | ldi (imm8 : Byte) : ExecTo s (.ldi imm8)
      (((s.latchRead s.pc imm8).setA imm8).advancePc.setLastOp (.load s.pc imm8)).endExecute
  | out : ExecTo s .out ((s.appendOutput s.a).setLastOp (.out s.a)).endExecute
  | hlt : ExecTo s .hlt (s.halt .halt).endExecute
  | unknown (op : Byte) : ExecTo s (.unknown op) (s.halt (.unknown op)).endExecute

theorem execTo_of_exec {i : Instr} {s t : State} (h : exec i s = .next t) : ExecTo s i t := by
  cases i with
  | ldi imm8 => exact Host.Outcome.next.inj h ▸ .ldi imm8
  | out => exact Host.Outcome.next.inj h ▸ .out
  | hlt => exact Host.Outcome.next.inj h ▸ .hlt
  | unknown op => exact Host.Outcome.next.inj h ▸ .unknown op

/-- What all four instructions leave alone: `IR`, the memory, and the records made so far. -/
theorem exec_common_frame {i : Instr} {s t : State} (h : exec i s = .next t) :
    t.ir = s.ir ∧ t.mem = s.mem ∧ s.trace <+: t.trace := by
  cases execTo_of_exec h with
  | ldi | out | hlt | unknown => simp

/-- No instruction but that of the default row leaves the UNKNOWN label (R80, R81). -/
theorem eq_unknown_of_exec_lastOp {i : Instr} {op : Byte} {s t : State} (h : exec i s = .next t)
    (hl : t.lastOp = .unknown op) : i = .unknown op := by
  cases execTo_of_exec h with
  | ldi | out | hlt => simp at hl
  | unknown u => simpa using hl

/-! ### The obligations -/

/-- Settles O15. -/
theorem execLdiCompletes : Obligations.ExecLdiCompletes :=
  fun imm8 _ hr => exec_ldi_eq_afterLdi imm8 hr

/-- Settles O16. -/
theorem execOutCompletes : Obligations.ExecOutCompletes :=
  fun _ hr => exec_out_eq_afterOut hr

/-- Settles O17. -/
theorem execHltCompletes : Obligations.ExecHltCompletes :=
  exec_hlt_eq_afterHlt

/-- Settles O18. -/
theorem execUnknownCompletes : Obligations.ExecUnknownCompletes :=
  exec_unknown_eq_afterUnknown

/-- Settles O39: the two expected states differ in the label alone, and their records in nothing but it. -/
theorem haltsDifferOnlyInLabel : Obligations.HaltsDifferOnlyInLabel := by
  intro op s
  refine ⟨_, _, exec_hlt_eq_afterHlt s, exec_unknown_eq_afterUnknown op s, rfl, rfl, rfl, ?_, rfl⟩
  simp [State.points, Expected.afterHlt, Expected.afterUnknown, Expected.record]

/-- Settles O25: the common frame, and for each instruction the fields its arm does not write. -/
theorem execFrame : Obligations.ExecFrame := by
  intro i s t h
  obtain ⟨hir, hmem, htrace⟩ := exec_common_frame h
  refine ⟨hir, State.memRead_eq_of_mem_eq hmem, htrace, ?_⟩
  cases execTo_of_exec h with
  | ldi | out | hlt | unknown => simp

/-- Settles O19: the execute micro-step is exec of `LDI` with the byte at `PC`, and the step is that of the fetched
state. -/
theorem ldiLoadsTheNextByte : Obligations.LdiLoadsTheNextByte := by
  refine ⟨fun s hr hp hir => ?_, fun s hr hp hop => ?_⟩
  · rw [microStep_of_execute hr hp, decodeExecute_ldi hir, exec_ldi_eq_afterLdi _ hr]
  · have hstep : step s = .next (Expected.afterLdi (s.memRead (inc8 s.pc)) (fetch s)) := by
      rw [step_of_fetch hr hp, decodeExecute_ldi (s := fetch s) hop]
      exact exec_ldi_eq_afterLdi _ hr
    have hpc : inc8 s.pc + 1 = s.pc + 2 := BitVec.add_assoc s.pc 1 1
    exact ⟨_, hstep, rfl, rfl, rfl, hop, hpc, rfl, hr, rfl⟩

end Sys2Proof.Machine
end

section
/-! PROOFS. What a micro-step reads and writes (R17), field by field: the label (R21), the read registers (R13, R14),
the exception (R81), the records (R69, R70), and that nothing reads the trace or the output back. -/

namespace Sys2Proof.Machine

/-! ### The label -/

section
variable {s t : State} (h : microStep s = some (.next t))
include h

/-- Every micro-step writes its label (R21, R22). -/
theorem microStep_lastOp :
    t.lastOp = if s.phase = .fetch then .fetch s.pc (s.memRead s.pc)
      else if s.ir = opcodeLdi then .load s.pc (s.memRead s.pc)
      else if s.ir = opcodeOut then .out s.a
      else if s.ir = opcodeHlt then .halt
      else .unknown s.ir := by
  obtain ⟨-, ht⟩ := microStep_iff.1 h
  cases ht with
  | fetch hp => simp [hp]
  | ldi hp hir => simp [hp, hir]
  | out hp hir => simp [hp, hir, opcodeOut_ne_opcodeLdi]
  | hlt hp hir => simp [hp, hir, opcodeHlt_ne_opcodeLdi, opcodeHlt_ne_opcodeOut]
  | unknown hp hir =>
    obtain ⟨hldi, hout, hhlt⟩ := (isUnknownOpcode_iff _).1 hir
    simp [hp, hldi, hout, hhlt]

/-- A micro-step raises UnknownOpcode exactly when it executes an unknown opcode (R81). -/
theorem microStep_raises_iff :
    (∃ op, t.lastOp = .unknown op) ↔ s.phase = .execute ∧ isUnknownOpcode s.ir = true := by
  obtain ⟨-, ht⟩ := microStep_iff.1 h
  cases ht with
  | fetch hp => simp [hp]
  | ldi hp hir | out hp hir | hlt hp hir => simp [hir, isUnknownOpcode]
  | unknown hp hir => simp [hp, hir]

/-- A micro-step that halts leaves the run complete: FINAL is its last record (R66, R70). -/
theorem microStep_runComplete (hh : t.running = false) : t.runComplete = true := by
  obtain ⟨hp, -, -⟩ := (microStep_halts_iff h).1 hh
  simp [State.runComplete, microStep_trace_of_execute h hp, hh]

/-- A micro-step with phase FETCH is the fetch (R59, R60). -/
theorem microStep_eq_fetch (hp : s.phase = .fetch) : t = fetch s := by
  have hfetch := microStep_of_fetch (microStep_iff.1 h).1 hp
  exact Host.Outcome.next.inj (Option.some.inj (h.symm.trans hfetch))

end

/-- No micro-step reads the label (R21). -/
theorem MicroStepTo.with_lastOp {s t : State} (l : Label) (ht : MicroStepTo s t) :
    MicroStepTo { s with lastOp := l } t := by
  cases ht with
  | fetch hp => exact .fetch hp
  | ldi hp hir => exact .ldi hp hir
  | out hp hir => exact .out hp hir
  | hlt hp hir => exact .hlt hp hir
  | unknown hp hir => exact .unknown hp hir

theorem microStep_with_lastOp (s : State) (l : Label) : microStep { s with lastOp := l } = microStep s := by
  obtain hr | hr := Bool.eq_false_or_eq_true s.running
  · obtain ⟨t, ht⟩ := exists_microStep hr
    obtain ⟨-, hto⟩ := microStep_iff.1 ht
    rw [ht]
    exact microStep_iff.2 ⟨hr, hto.with_lastOp l⟩
  · rw [microStep_of_halted hr]
    exact microStep_of_halted hr

/-! ### Values written depend only on values read -/

section
variable {s s' t t' : State} (h : microStep s = some (.next t)) (h' : microStep s' = some (.next t'))
  (hphase : s.phase = s'.phase)
include h h' hphase

/-- The fetch writes what it reads at `PC` (R17, R60). -/
theorem fetch_writes_eq (hp : s.phase = .fetch) (hpc : s.pc = s'.pc) (hread : s.memRead s.pc = s'.memRead s.pc) :
    t.mar = t'.mar ∧ t.mbr = t'.mbr ∧ t.ir = t'.ir ∧ t.pc = t'.pc ∧ t.lastOp = t'.lastOp ∧ t.phase = t'.phase := by
  rw [microStep_eq_fetch h hp, microStep_eq_fetch h' (hphase ▸ hp)]
  simp [← hpc, hread]

/-- Whether an execute micro-step halts depends on `IR` alone (R17, R62). -/
theorem execute_running_eq (hir : s.ir = s'.ir) : t.running = t'.running := by
  have hiff : t.running = false ↔ t'.running = false := by
    rw [microStep_halts_iff h, microStep_halts_iff h', hphase, hir]
  cases ht : t'.running with
  | false => exact hiff.2 ht
  | true => exact Bool.of_not_eq_false fun hf => by simp [hiff.1 hf] at ht

/-- `LDI` writes what it reads at `PC` (R17, R74). -/
theorem ldi_writes_eq (hp : s.phase = .execute) (hir : s.ir = s'.ir) (hldi : s.ir = opcodeLdi) (hpc : s.pc = s'.pc)
    (hread : s.memRead s.pc = s'.memRead s.pc) :
    t.mar = t'.mar ∧ t.mbr = t'.mbr ∧ t.a = t'.a ∧ t.pc = t'.pc ∧ t.lastOp = t'.lastOp := by
  obtain ⟨hmar, hmbr⟩ := microStep_mar_mbr h
  obtain ⟨hmar', hmbr'⟩ := microStep_mar_mbr h'
  rw [hmar, hmbr, hmar', hmbr', microStep_a h, microStep_a h', microStep_pc h, microStep_pc h', microStep_lastOp h,
    microStep_lastOp h']
  simp [← hphase, hp, ← hir, hldi, ← hpc, hread]

end

/-! ### The trace and the output are not read back -/

/-- The records that end an execute micro-step (R70). `State.endExecute_eq` ties them to `endExecute`. -/
def State.endRecords (s : State) : List TraceRecord :=
  { point := .postExecute, snapshot := s.snapshot } ::
    (if s.running then [] else [{ point := .final, snapshot := s.snapshot }])

/-- `endExecute` writes `phase` and appends to the trace, and nothing else. -/
theorem State.endExecute_eq (s : State) :
    s.endExecute = { s with phase := .fetch, trace := s.trace ++ s.endRecords } := by
  obtain hr | hr := Bool.eq_false_or_eq_true s.running
  · rw [State.endExecute_of_running s hr, State.endRecords, if_pos hr]
    rfl
  · rw [State.endExecute_of_halted s hr, State.endRecords, if_neg (by simp [hr]), List.append_cons]
    rfl

/-- With another trace the end of an execute micro-step appends the same records. -/
theorem MicroStepTo.endExecute_with_trace {s u : State} {trace : List TraceRecord}
    (h : MicroStepTo s ({ u with trace := trace } : State).endExecute) :
    ∃ new, u.endExecute.trace = u.trace ++ new ∧ MicroStepTo s { u.endExecute with trace := trace ++ new } := by
  refine ⟨u.endRecords, congrArg State.trace u.endExecute_eq, ?_⟩
  rw [State.endExecute_eq] at h ⊢
  exact h

/-- A micro-step appends the same records to any trace, and leaves the rest the same. -/
theorem MicroStepTo.with_trace {s t : State} (trace : List TraceRecord) (ht : MicroStepTo s t) :
    ∃ new, t.trace = s.trace ++ new ∧ MicroStepTo { s with trace := trace } { t with trace := trace ++ new } := by
  cases ht with
  | fetch hp => exact ⟨_, rfl, .fetch hp⟩
  | ldi hp hir => exact endExecute_with_trace (.ldi hp hir)
  | out hp hir => exact endExecute_with_trace (.out hp hir)
  | hlt hp hir => exact endExecute_with_trace (.hlt hp hir)
  | unknown hp hir => exact endExecute_with_trace (.unknown hp hir)

/-- States that differ only in output and trace still do after `endExecute`. -/
theorem State.endExecute_with_output {u v : State} (h : { u with output := v.output, trace := v.trace } = v) :
    { u.endExecute with output := v.endExecute.output, trace := v.endExecute.trace } = v.endExecute := by
  rw [State.endExecute_eq, State.endExecute_eq]
  exact congrArg (fun w : State => { w with phase := .fetch, trace := v.trace ++ v.endRecords }) h

/-- A micro-step appends the same bytes to any output, and leaves the rest the same but for the records. -/
theorem MicroStepTo.with_output {s t : State} (output : List Byte) (ht : MicroStepTo s t) :
    ∃ new t', t.output = s.output ++ new ∧ MicroStepTo { s with output := output } t' ∧ t'.output = output ++ new ∧
      { t' with output := t.output, trace := t.trace } = t := by
  cases ht with
  | fetch hp => exact ⟨[], _, by simp, .fetch hp, by simp, rfl⟩
  | ldi hp hir => exact ⟨[], _, by simp, .ldi hp hir, by simp, State.endExecute_with_output rfl⟩
  | out hp hir => exact ⟨[s.a], _, by simp, .out hp hir, by simp, State.endExecute_with_output rfl⟩
  | hlt hp hir => exact ⟨[], _, by simp, .hlt hp hir, by simp, State.endExecute_with_output rfl⟩
  | unknown hp hir => exact ⟨[], _, by simp, .unknown hp hir, by simp, State.endExecute_with_output rfl⟩

/-! ### The obligations -/

/-- Settles O26, from what each micro-step writes in each of two runs. -/
theorem writtenValuesDependOnlyOnReads : Obligations.WrittenValuesDependOnlyOnReads := by
  intro s s' t t' h h' hphase
  refine ⟨fetch_writes_eq h h' hphase, fun hp hir => ⟨?_, execute_running_eq h h' hphase hir,
    fun hldi => ldi_writes_eq h h' hphase hp hir hldi, fun hout ha => ⟨?_, s.a, ?_, ?_⟩, fun hldi hout => ?_⟩⟩
  · rw [microStep_phase h, microStep_phase h', hphase]
  · rw [microStep_lastOp h, microStep_lastOp h']
    simp [← hphase, hp, ← hir, hout, ← ha, opcodeLdi]
  · exact (microStep_output h).trans (if_pos ⟨hp, hout⟩)
  · rw [ha]
    exact (microStep_output h').trans (if_pos ⟨hphase ▸ hp, hir ▸ hout⟩)
  · have hldi' : s.ir ≠ opcodeLdi := hldi
    have hout' : s.ir ≠ opcodeOut := hout
    rw [microStep_lastOp h, microStep_lastOp h']
    simp [← hphase, hp, ← hir, hldi', hout']

/-- Settles O29. -/
theorem marAndMbrLatchEveryRead : Obligations.MarAndMbrLatchEveryRead :=
  ⟨fun _ _ h => microStep_mar_mbr h, fun _ => rfl⟩

/-- Settles O31. -/
theorem everyMicroStepLabels : Obligations.EveryMicroStepLabels :=
  ⟨fun _ _ h => microStep_lastOp h, fun _ => rfl, State.snapshot_lastOp, microStep_with_lastOp⟩

/-- Settles O38. -/
theorem unknownOpcodeIsTheOnlyException : Obligations.UnknownOpcodeIsTheOnlyException :=
  ⟨fun s _ h => (microStep_raises_iff h).trans (and_congr_right fun _ => isUnknownOpcode_iff s.ir),
    fun _ _ _ _ => eq_unknown_of_exec_lastOp⟩

/-- Settles O40. -/
theorem microStepsRecordTheirRenderPoints : Obligations.MicroStepsRecordTheirRenderPoints :=
  fun _ _ h => ⟨microStep_trace_of_fetch h, microStep_trace_of_execute h, microStep_runComplete h⟩

/-- Settles O41, by the rows of the micro-step relation. -/
theorem traceAndOutputAreNeverReadBack : Obligations.TraceAndOutputAreNeverReadBack := by
  refine ⟨fun s t trace h => ?_, fun s t output h => ?_⟩ <;> obtain ⟨hr, ht⟩ := microStep_iff.1 h
  · obtain ⟨new, hnew, hto⟩ := ht.with_trace trace
    exact ⟨new, hnew, microStep_iff.2 ⟨hr, hto⟩⟩
  · obtain ⟨new, t', hnew, hto, hout, hrest⟩ := ht.with_output output
    exact ⟨new, t', hnew, microStep_iff.2 ⟨hr, hto⟩, hout, hrest⟩

/-- Settles O11. -/
theorem resetValues : Obligations.ResetValues :=
  ⟨rfl, rfl, rfl, rfl, rfl, rfl, rfl, rfl, rfl, rfl, fun _ => rfl⟩

/-- Settles O12: reset is a function of the memory, and the micro-step after it is the fetch at address 0. -/
theorem resetReinitialises : Obligations.ResetReinitialises := by
  refine ⟨fun s => rfl, fun s t hmem => ?_, fun s => ?_⟩
  · rw [applyReset, applyReset, hmem]
  · exact ⟨fetch (applyReset s), microStep_of_fetch rfl rfl, fetch_trace (applyReset s), rfl, rfl⟩

end Sys2Proof.Machine
end

section
/-! PROOFS. The instruction step and the run (R65 to R72): a step runs the decoded instruction, every run completes,
Halted is the one idle state, and what a run leaves in the trace. -/

namespace Sys2Proof.Machine

/-! ### The step and the run, case by case -/

/-- Every step completes: the machine has no fault and no refusal (R35, R83). -/
theorem exists_step (s : State) : ∃ t, step s = .next t := by
  obtain hr | hr := Bool.eq_false_or_eq_true s.running
  · cases hp : s.phase with
    | fetch =>
      obtain ⟨t, -, hstep⟩ := exists_step_of_fetch hr hp
      exact ⟨t, hstep⟩
    | execute =>
      obtain ⟨t, ht⟩ := exists_microStep hr
      rw [microStep_of_execute hr hp] at ht
      exact ⟨t, (step_of_execute hr hp).trans (Option.some.inj ht)⟩
  · exact ⟨s, step_of_halted hr⟩

theorem run_of_halted {s : State} (hh : s.running = false) (n : Nat) : run n s = .next s := by
  cases n with
  | zero => rfl
  | succ n => simp [run, hh]

theorem run_succ_of_step {s t : State} (hr : s.running = true) (h : step s = .next t) (n : Nat) :
    run (n + 1) s = run n t := by
  have h' : instructionStep s = .next t := h
  simp [run, hr, h']

/-- Every run completes. -/
theorem exists_run (n : Nat) (s : State) : ∃ t, run n s = .next t := by
  induction n generalizing s with
  | zero => exact ⟨s, rfl⟩
  | succ n ih =>
    obtain hr | hr := Bool.eq_false_or_eq_true s.running
    · obtain ⟨m, hm⟩ := exists_step s
      rw [run_succ_of_step hr hm]
      exact ih m
    · exact ⟨s, run_of_halted hr _⟩

/-- The host's steps leave a Halted machine as it is (R68). -/
theorem core_run_of_halted {s : State} (hh : s.running = false) (n : Nat) : core.run n s = .next s := by
  induction n with
  | zero => rfl
  | succ n ih =>
    have hstep : core.step s = .next s := step_of_halted hh
    simp only [Host.Core.run, hstep]
    exact ih

/-! ### What a step from an instruction boundary leaves -/

/-- The execute micro-step runs what `IR` and the byte at `PC` decode to, since a one-byte instruction does not depend
on that byte (R51, R62). -/
theorem decodeExecute_of_decode_pair {s : State} {i : Instr} {rest : List Byte}
    (h : decode [s.ir, s.memRead s.pc] = .ok (i, rest)) : decodeExecute s = exec i s := by
  obtain ⟨imm8, rfl, hb⟩ | ⟨rfl, hb⟩ | ⟨rfl, hb⟩ | ⟨op, rfl, hunk, hb⟩ := decode_cases h <;>
    obtain ⟨hir, htail⟩ := List.cons.inj hb
  · rw [decodeExecute_ldi hir, (List.cons.inj htail).1]
  · exact decodeExecute_out hir
  · exact decodeExecute_hlt hir
  · rw [← hir] at hunk ⊢
    exact decodeExecute_unknown hunk

/-- At an instruction boundary a step runs what the two bytes from `PC` decode to (R65). -/
theorem step_of_decode {s : State} {i : Instr} {rest : List Byte} (hr : s.running = true) (hp : s.phase = .fetch)
    (h : decode [s.memRead s.pc, s.memRead (inc8 s.pc)] = .ok (i, rest)) : step s = exec i (fetch s) := by
  rw [step_of_fetch hr hp]
  exact decodeExecute_of_decode_pair (s := fetch s) h

/-- A step from an instruction boundary ends at one, halts exactly on an opcode other than those of `LDI` and `OUT`,
keeps the memory, and leaves two records, and FINAL as a third if it halts (R65, R66, R70). -/
structure BoundaryStep (s t : State) : Prop where
  step_eq : step s = .next t
  phase_eq : t.phase = .fetch
  halts_iff : t.running = false ↔ s.memRead s.pc ≠ opcodeLdi ∧ s.memRead s.pc ≠ opcodeOut
  mem_eq : t.mem = s.mem
  trace_length : t.trace.length = s.trace.length + if t.running then 2 else 3
  run_complete : t.running = false → t.runComplete = true

theorem exists_boundaryStep {s : State} (hr : s.running = true) (hp : s.phase = .fetch) : ∃ t, BoundaryStep s t := by
  obtain ⟨t, ht, hstep⟩ := exists_step_of_fetch hr hp
  exact ⟨t, {
    step_eq := hstep
    phase_eq := by simp [microStep_phase ht]
    halts_iff := by simp [microStep_halts_iff ht]
    mem_eq := (microStep_extends ht).mem_eq
    trace_length := by
      rw [microStep_trace_of_execute ht rfl, fetch_trace]
      cases t.running <;> simp
    run_complete := microStep_runComplete ht }⟩

/-! ### Runs from an instruction boundary -/

/-- Where a run of at most `n` steps can end: still Running with two records a step, or Halted by its last step with one
record more (R66, R70). -/
def RunEnds (n : Nat) (s t : State) : Prop :=
  (t.running = true ∧ t.trace.length = s.trace.length + 2 * n) ∨
  (t.running = false ∧ t.runComplete = true ∧ ∃ k u, k < n ∧ run k s = .next u ∧ u.running = true ∧
    t.trace.length = s.trace.length + 2 * (k + 1) + 1)

/-- A step that does not halt in front of a run adds its two records, and one to the number of steps. -/
theorem RunEnds.after_step {n : Nat} {s m t : State} (hr : s.running = true) (hstep : step s = .next m)
    (hlen : m.trace.length = s.trace.length + 2) (h : RunEnds n m t) : RunEnds (n + 1) s t := by
  obtain ⟨ht, htlen⟩ | ⟨ht, hcomplete, k, u, hk, hu, hur, htlen⟩ := h
  · exact .inl ⟨ht, by omega⟩
  · exact .inr ⟨ht, hcomplete, k + 1, u, by omega, (run_succ_of_step hr hstep k).trans hu, hur, by omega⟩

theorem exists_run_ends (n : Nat) {s : State} (hr : s.running = true) (hp : s.phase = .fetch) :
    ∃ t, run n s = .next t ∧ t.phase = .fetch ∧ RunEnds n s t := by
  induction n generalizing s with
  | zero => exact ⟨s, rfl, hp, .inl ⟨hr, rfl⟩⟩
  | succ n ih =>
    obtain ⟨m, hm⟩ := exists_boundaryStep hr hp
    have hlen := hm.trace_length
    rw [run_succ_of_step hr hm.step_eq]
    obtain hmr | hmr := Bool.eq_false_or_eq_true m.running
    · obtain ⟨t, ht, htp, hends⟩ := ih hmr hm.phase_eq
      exact ⟨t, ht, htp, hends.after_step hr hm.step_eq (by simpa [hmr] using hlen)⟩
    · exact ⟨m, run_of_halted hmr n, hm.phase_eq,
        .inr ⟨hmr, hm.run_complete hmr, 0, s, n.succ_pos, rfl, hr, by simpa [hmr] using hlen⟩⟩

/-- A memory that holds only the opcodes of `LDI` and `OUT`. -/
def OnlyLoadsAndOutputs (m : Memory) : Prop := ∀ addr : Byte, m.read addr = opcodeLdi ∨ m.read addr = opcodeOut

/-- In such a memory a run goes on for any number of steps (R72). -/
theorem exists_run_running (n : Nat) {s : State} (hr : s.running = true) (hp : s.phase = .fetch)
    (hmem : OnlyLoadsAndOutputs s.mem) : ∃ t, run n s = .next t ∧ t.running = true ∧ t.phase = .fetch := by
  induction n generalizing s with
  | zero => exact ⟨s, rfl, hr, hp⟩
  | succ n ih =>
    obtain ⟨m, hm⟩ := exists_boundaryStep hr hp
    have hmr : m.running = true := Bool.of_not_eq_false fun hh => by
      obtain ⟨hldi, hout⟩ := hm.halts_iff.1 hh
      exact (hmem s.pc).elim hldi hout
    rw [run_succ_of_step hr hm.step_eq]
    exact ih hmr hm.phase_eq (hm.mem_eq ▸ hmem)

/-! ### The instruction placed at `PC` -/

theorem inc8_ne (x : Byte) : inc8 x ≠ x := by
  rw [inc8]
  bv_omega

/-- Placing sets the cell at `PC` and the one after it; they are two cells, also across the wrap (R51). -/
theorem State.memRead_placeAtPc {s : State} (h : s.mem.wf) (first second : Byte) :
    (s.placeAtPc first second).memRead s.pc = first ∧ (s.placeAtPc first second).memRead (inc8 s.pc) = second := by
  have hfirst := Memory.wf_write h s.pc first
  constructor
  · exact (Memory.read_write hfirst _ _ _).trans
      ((if_neg (inc8_ne s.pc).symm).trans ((Memory.read_write h _ _ _).trans (if_pos rfl)))
  · exact (Memory.read_write hfirst _ _ _).trans (if_pos rfl)

/-- Between placing and fetching the two cells from `PC` hold the bytes of the word. -/
theorem State.memRead_withFetchWord {s : State} (h : s.mem.wf) (nbits w : Nat) :
    (s.withFetchWord nbits w).memRead (s.withFetchWord nbits w).pc = tableByte nbits w 0 ∧
    (s.withFetchWord nbits w).memRead (inc8 (s.withFetchWord nbits w).pc) = tableByte nbits w 1 :=
  State.memRead_placeAtPc (s := s.readyToFetch) h _ _

/-! ### The obligations -/

/-- Settles O33, from the condition on which a micro-step halts and the run's cases. -/
theorem runningClearedOnlyByHalts : Obligations.RunningClearedOnlyByHalts := by
  refine ⟨fun _ => rfl, fun _ _ h => microStep_halts_iff h, fun n s t hh h => ?_, fun n s hh => run_of_halted hh n,
    fun n s hr => ?_, State.snapshot_running⟩
  · obtain rfl := Host.Outcome.next.inj ((advances_of_halted hh n).symm.trans h)
    exact hh
  · obtain ⟨t, ht⟩ := exists_step s
    rw [run_succ_of_step hr ht, ht]

/-- Settles O34. -/
theorem haltedStateIsFrozen : Obligations.HaltedStateIsFrozen :=
  ⟨fun _ => exists_microStep, fun _ hh => ⟨microStep_of_halted hh, advances_of_halted hh⟩,
    fun n _ hh => core_run_of_halted hh n, fun _ _ => rfl⟩

/-- Settles O37; an advance is the micro-step of a Running state and nothing while Halted. -/
theorem everyStepCompletes : Obligations.EveryStepCompletes := by
  refine fun s => ⟨exists_step s, ?_, fun n => exists_run n s⟩
  obtain hr | hr := Bool.eq_false_or_eq_true s.running
  · obtain ⟨t, ht⟩ := exists_microStep hr
    exact ⟨t, by rw [advance, ht, Option.getD_some]⟩
  · exact ⟨s, by rw [advance, microStep_of_halted hr, Option.getD_none]⟩

/-- Settles O36. -/
theorem stepRunsTheDecodedInstruction : Obligations.StepRunsTheDecodedInstruction :=
  ⟨fun _ _ _ hr hp h => step_of_decode hr hp h,
    fun _ _ _ hr hp h => (step_of_execute hr hp).trans (decodeExecute_of_decode_pair h),
    fun _ => step_of_halted⟩

/-- Settles O42, by induction on the bound (`exists_run_ends`). -/
theorem runLeavesTwoRecordsPerInstruction : Obligations.RunLeavesTwoRecordsPerInstruction :=
  fun n _ hr hp => exists_run_ends n hr hp

/-- Settles O43, by the step from an instruction boundary and induction on the bound (`exists_run_running`). -/
theorem runGoesOnWhileLoadsAndOutputs : Obligations.RunGoesOnWhileLoadsAndOutputs := by
  refine ⟨fun s hr hp => ?_, fun n s hr hp hmem => exists_run_running n hr hp hmem⟩
  obtain ⟨t, ht⟩ := exists_boundaryStep hr hp
  exact ⟨t, ht.step_eq, ht.halts_iff⟩

/-- Settles O48: the two cells from `PC` hold the word's bytes, and the step runs what they decode to. -/
theorem placedInstructionIsTheOneRun : Obligations.PlacedInstructionIsTheOneRun := by
  intro s nbits w i hwf hi
  obtain ⟨rest, hdecode⟩ := decode_of_decodeTableWord hi
  obtain ⟨hfirst, hsecond⟩ := State.memRead_withFetchWord hwf nbits w
  refine step_of_decode rfl rfl (rest := rest) ?_
  rw [hfirst, hsecond, hdecode]

end Sys2Proof.Machine
end

section
/-! PROOFS. The assembly form (R57): a program without directives assembles to its encodings from address 0x00 up. -/

namespace Sys2Proof.Machine

/-! ### A program is emitted as its encodings -/

theorem asmByte_toNat (b : Byte) : asmByte b.toNat = .ok b := by
  rw [asmByte, if_pos b.isLt, BitVec.ofNat_toNat, BitVec.setWidth_eq]

theorem asmByte_of_ge {n : Nat} (h : 256 ≤ n) : asmByte n = .error .numberOutOfRange := by
  rw [asmByte, if_neg (by omega)]

theorem asmStatement_statementOf (st : AsmState) (i : Instr) :
    asmStatement st (Expected.statementOf i) = asmEmit (encode i) st := by
  cases i with
  | ldi imm8 => simp [Expected.statementOf, asmStatement, asmByte_toNat]
  | out => rfl
  | hlt => rfl
  | unknown op => simp [Expected.statementOf, asmStatement, asmByte_toNat, encode]

/-- Emitting two runs of bytes is emitting the first and then the second. -/
theorem asmEmit_append (xs ys : List Byte) (st : AsmState) :
    asmEmit (xs ++ ys) st = (asmEmit xs st).bind (asmEmit ys) := by
  induction xs generalizing st with
  | nil => rfl
  | cons x xs ih =>
    simp only [List.cons_append, asmEmit]
    split
    · rfl
    · exact ih _

theorem asmStatements_map_statementOf (program : List Instr) (st : AsmState) :
    asmStatements (program.map Expected.statementOf) st = asmEmit (program.flatMap encode) st := by
  induction program generalizing st with
  | nil => rfl
  | cons i program ih =>
    rw [List.map_cons, asmStatements, asmStatement_statementOf, List.flatMap_cons, asmEmit_append]
    cases asmEmit (encode i) st with
    | ok st' => exact ih st'
    | error e => rfl

/-! ### Where the emitted bytes stand -/

/-- Bytes in the cells from `lo` up. `asmEmit_eq_placed` ties it to `asmEmit`. -/
def placedFrom (lo : Nat) : List Byte → List (Byte × Byte)
  | [] => []
  | b :: rest => (BitVec.ofNat 8 lo, b) :: placedFrom (lo + 1) rest

/-- Bytes emitted at `lo`, above all the cells emitted so far and below 256, stand in the cells from `lo` up. -/
theorem asmEmit_eq_placed (bytes : List Byte) {lo : Nat} {cells : List (Byte × Byte)} (hlo : lo + bytes.length ≤ 256)
    (hcells : ∀ c ∈ cells, c.1.toNat < lo) :
    asmEmit bytes { loc := BitVec.ofNat 8 lo, cells := cells } =
      .ok { loc := BitVec.ofNat 8 (lo + bytes.length), cells := cells ++ placedFrom lo bytes } := by
  induction bytes generalizing lo cells with
  | nil => simp [asmEmit, placedFrom]
  | cons b bytes ih =>
    rw [List.length_cons] at hlo
    have hloc : (BitVec.ofNat 8 lo).toNat = lo := Nat.mod_eq_of_lt (by omega)
    have hnext : inc8 (BitVec.ofNat 8 lo) = BitVec.ofNat 8 (lo + 1) := (BitVec.ofNat_add lo 1).symm
    have hfree : ¬(cells.any (fun c => c.1 == BitVec.ofNat 8 lo)) = true := by
      rw [List.any_eq_true]
      rintro ⟨c, hc, heq⟩
      have := hcells c hc
      rw [eq_of_beq heq, hloc] at this
      omega
    have hcells' : ∀ c ∈ cells ++ [(BitVec.ofNat 8 lo, b)], c.1.toNat < lo + 1 := by
      intro c hc
      obtain hc | hc := List.mem_append.1 hc
      · exact Nat.lt_succ_of_lt (hcells c hc)
      · rw [List.mem_singleton.1 hc, hloc]
        exact Nat.lt_succ_self lo
    rw [asmEmit, if_neg hfree, hnext, ih (by omega) hcells', placedFrom, List.append_assoc, List.singleton_append,
      List.length_cons, Nat.add_right_comm, Nat.add_assoc]

/-- The image of placed bytes holds them in order, and the fill byte after them. -/
theorem asmImage_placedFrom (bytes : List Byte) {lo : Nat} (hlo : lo + bytes.length ≤ 256) (i : Fin 256)
    (hi : lo ≤ i.val) : asmImage (placedFrom lo bytes) i = (bytes[i.val - lo]?).getD Config.fillByte := by
  induction bytes generalizing lo with
  | nil => rfl
  | cons b bytes ih =>
    rw [List.length_cons] at hlo
    have haddr : ((BitVec.ofNat 8 lo : Byte) == BitVec.ofFin i) = decide (lo = i.val) := by
      rw [Bool.eq_iff_iff, beq_iff_eq, decide_eq_true_iff, ← BitVec.toNat_inj, BitVec.toNat_ofNat, BitVec.toNat_ofFin,
        Nat.mod_eq_of_lt (by omega)]
    by_cases heq : lo = i.val
    · simp [asmImage, placedFrom, heq]
    · have hsub : i.val - lo = (i.val - (lo + 1)) + 1 := by omega
      rw [hsub, List.getElem?_cons_succ, ← ih (by omega) (by omega)]
      simp [asmImage, placedFrom, haddr, heq]

/-- A program of at most 256 bytes assembles to the image of its encodings from address 0x00 up. -/
theorem assemble_map_statementOf {program : List Instr} (h : (program.flatMap encode).length ≤ 256) :
    assemble (program.map Expected.statementOf) = .ok (asmImage (placedFrom 0 (program.flatMap encode))) := by
  have hemit := asmEmit_eq_placed (lo := 0) (cells := []) _ (by rwa [Nat.zero_add]) (by simp)
  have hstart : (Config.entryPoint : Byte) = BitVec.ofNat 8 0 := rfl
  rw [assemble, asmStatements_map_statementOf, hstart, hemit, List.nil_append]

/-- Settles O51, from `assemble_map_statementOf` and the image of placed bytes. -/
theorem assembledProgramsFillTheImage : Obligations.AssembledProgramsFillTheImage := by
  refine ⟨fun program h => ⟨_, assemble_map_statementOf h, fun i => ?_⟩, fun n hn => ?_⟩
  · exact asmImage_placedFrom _ (by rwa [Nat.zero_add]) i (Nat.zero_le _)
  · simp [assemble, asmStatements, asmStatement, asmByte_of_ge hn]

end Sys2Proof.Machine
end

section
/-! PROOFS. What an admissible presentation shows (R22, R77). -/

namespace Sys2Proof.Machine

/-- After `OUT` the output shows one more character, that of the byte in `A` (R76, R77). -/
theorem Presentation.shownOutput_after_out (p : Presentation) (s : State) :
    ∃ t, exec .out s = .next t ∧ p.shownOutput t.snapshot = p.shownOutput s.snapshot ++ [p.charMap s.a] :=
  ⟨_, rfl, by simp [Presentation.shownOutput, State.implicitA]⟩

/-- Settles O50: each label and character is the one that the presentation's constraint for it speaks of. -/
theorem presentationsShowTheSpecTexts : Obligations.PresentationsShowTheSpecTexts := by
  intro p s hp
  obtain ⟨t, ht, hshown⟩ := p.shownOutput_after_out s
  refine ⟨hp.none_is_empty, ⟨_, exec_hlt_eq_afterHlt s, hp.halt_is_HLT⟩,
    fun op => ⟨_, exec_unknown_eq_afterUnknown op s, hp.unknown_is_named op⟩, fun hascii => ?_, fun hhigh => ?_⟩
  · exact ⟨t, ht, hp.ascii_char s.a hascii ▸ hshown⟩
  · exact ⟨t, _, ht, hshown, hp.out_of_ascii_char s.a hhigh⟩

end Sys2Proof.Machine
end
